-- ==== Sys2Proof/Word.lean ====
section
/-! DEFINITION. The widths of the block's words: the 64-bit value word (00_scope.md R5, `W`), the 16-bit operand and
information fields (R5 `A_BITS`, R50), the 32-bit command word (R47), the pin-event byte (R54). -/

namespace Sys2Proof

/-- A `W`-bit value: a Pattern's bits, `VALUE`, a response's result (R5: `W = 64`). -/
abbrev Word := BitVec 64

/-- A 16-bit field of the response, `info_index` or `info_width` (R50). -/
abbrev Info := BitVec 16

/-- The 32-bit command word `CMD` (R47). -/
abbrev CommandWord := BitVec 32

/-- The pin-event byte `PINEV` (R54). -/
abbrev PinByte := BitVec 8

end Sys2Proof
end

