-- ==== Sys2Proof/Config.lean ====
section
/-! DEFINITION. What an instance of the block fixes (00_scope.md R5, R6), what its environment answers
(60_exceptions.md R109, R113), and the values the spec leaves open, which are constants without a body. -/

namespace Sys2Proof

/-- `CHIP_BITS` (R5). -/
def Config.chipBits : Nat := 8

/-- `W`, the width of the value word and the greatest Pattern width (R5). -/
def Config.wordBits : Nat := 64

/-- The platform's form of `CTL_READBACK` (10_state.md R20), an OPEN parameter of the configuration. -/
inductive Readback where
  /-- The reference platform: the readback returns `pin.control`, and any level when that is unknown. -/
  | loopback
  /-- Any other platform: the readback returns whatever the environment supplies. -/
  | sensed
deriving DecidableEq, Repr

/-- The construction parameters of one instance of the block (R5). No command changes them. -/
structure Conf where
  /-- `CHIP_COUNT`. -/
  chipCount : Nat
  /-- `CTL_READBACK`. -/
  readback : Readback
deriving DecidableEq, Repr

/-- `CAPACITY = CHIP_COUNT * 8` (R5). -/
def Conf.capacity (c : Conf) : Nat := c.chipCount * Config.chipBits

/-- The construction constraint `1 <= CHIP_COUNT` and `CAPACITY <= W` (R6). -/
abbrev Conf.ok (c : Conf) : Prop := 1 ≤ c.chipCount ∧ c.capacity ≤ Config.wordBits

/-- The backend's error, "passed unchanged and opaque to the block" (R50): a token nothing inspects (log 10). -/
structure BackendError where
  token : Nat
deriving DecidableEq, Repr, Inhabited

/-- Whether a PinSink operation succeeded (`IO_ORACLE`, R109). -/
inductive IoResult where
  | ok
  | failed (e : BackendError)
deriving DecidableEq, Repr, Inhabited

/-- Everything the environment decides about one pin operation. -/
structure Draw where
  /-- `IO_ORACLE`'s answer (R109). -/
  io : IoResult
  /-- If the operation failed: whether the chain device reacted as if it had succeeded (R108). -/
  reacted : Bool
  /-- If the line's level was unknown and it is driven high: whether the device takes the rising edge (R113). -/
  edge : Bool
  /-- If the operation is a `PinGet`: the level the platform supplies (R20), `true` for 1. -/
  sensed : Bool
deriving DecidableEq, Repr, Inhabited

/-- FREE VALUE: the environment's answer to the `n`-th pin operation, where the state lists none (R109; log 2). -/
opaque Config.freeDraw : Nat → Draw

/-- FREE VALUE: `LIGHT_POSITION_MAP`, a bijection from chain stages to physical positions (R5, D25; log 13). -/
opaque Config.lightPosition (capacity : Nat) : Equiv.Perm (Fin capacity)

/-- FREE VALUE: `EMU_SOCKET_PATH`, the emulator endpoint's path (R5, R114; log 14). -/
opaque Config.emuSocketPath : String

end Sys2Proof
end

