-- ==== Sys2Proof/Syntax.lean ====
section
/-! DEFINITION. The instructions: one constructor per row of spec/opcode_table.json (30_encoding.md R51, R55), and the
requests that reach the block from outside (R46, R126). -/

namespace Sys2Proof

/-- A slot number, 0 .. 15: every value names an implemented slot (20_memory.md R31). -/
abbrev Slot := Fin 16

/-- The 17 commands (R51), and the four pin events (R55), each one `PinSet` (R106). An operand taken from the field `a`
is a natural (R48); a Bool is the flag `f`, `true` for 1 (R47), or a pin event's level, `true` for 1 (R54). -/
inductive Instr where
  | pnew (p : Slot) (width : Nat) (on : Bool)
  | pget (p : Slot) (index : Nat)
  | pset (p : Slot) (index : Nat) (value : Bool)
  | prol (p : Slot) (count : Nat)
  | pror (p : Slot) (count : Nat)
  | praw (p : Slot)
  | cen
  | cdis
  | cisen
  | cshift (value : Word) (count : Nat)
  | cwrite (value : Word)
  | lcfg (lightCount : Nat)
  | lnewpat (p : Slot) (on : Bool)
  | lset (p : Slot)
  | lon
  | loff
  | lison
  | pinevData (level : Bool)
  | pinevControl (level : Bool)
  | pinevClock (level : Bool)
  | pinevLatch (level : Bool)
deriving DecidableEq, Repr

/-- What the outside presents to the block. -/
inductive Request where
  /-- A transaction of the command port: a command word and the operand `VALUE` (R46). -/
  | command (cmd : CommandWord) (value : Word)
  /-- A pin-event byte on its own: one call of a PinSink write operation (R54, R106; log 4). -/
  | pinEvent (byte : PinByte)
  /-- The reset input, while no command is executing (R126). -/
  | reset
  /-- A transaction during which the reset input arrives, after the command has issued `issued` of its pin operations
  (R128; log 7). -/
  | commandReset (cmd : CommandWord) (value : Word) (issued : Nat)
deriving DecidableEq, Repr

end Sys2Proof
end

