-- ==== Sys2Proof/WellFormed.lean ====
section
/-! DEFINITION. Which instructions the encoding can spell: an operand of the field `a` is a natural 0 .. 65535
(30_encoding.md R48). Slot numbers, flags and `VALUE` are bounded by their types. -/

namespace Sys2Proof

/-- An operand the 16-bit field `a` can hold (R48). -/
def fitsA (a : Nat) : Bool := a < 65536

/-- The instruction can be encoded. -/
def Instr.wf : Instr → Bool
  | .pnew _ width _ => fitsA width
  | .pget _ index => fitsA index
  | .pset _ index _ => fitsA index
  | .prol _ count => fitsA count
  | .pror _ count => fitsA count
  | .praw _ => true
  | .cen => true
  | .cdis => true
  | .cisen => true
  | .cshift _ count => fitsA count
  | .cwrite _ => true
  | .lcfg lightCount => fitsA lightCount
  | .lnewpat _ _ => true
  | .lset _ => true
  | .lon => true
  | .loff => true
  | .lison => true
  | .pinevData _ => true
  | .pinevControl _ => true
  | .pinevClock _ => true
  | .pinevLatch _ => true

end Sys2Proof
end

