-- ==== Sys2Proof/Decode.lean ====
section
/-! DEFINITION. The decoder, total on every command word and every pin-event byte (30_encoding.md R47, R48, R51, R52,
R54, R55), and after it the encoder. -/

namespace Sys2Proof

/-! ## Fields of the command word (R47) -/

/-- Bits [7:0], the opcode. -/
def fieldOp (cmd : CommandWord) : BitVec 8 := cmd.extractLsb' 0 8

/-- Bits [11:8], the slot number. -/
def fieldS (cmd : CommandWord) : Slot := (cmd.extractLsb' 8 4).toFin

/-- Bit [12], the flag. -/
def fieldF (cmd : CommandWord) : Bool := cmd.getLsbD 12

/-- Bits [15:13], reserved. -/
def fieldRsv (cmd : CommandWord) : BitVec 3 := cmd.extractLsb' 13 3

/-- Bits [31:16], the operand, read as an unsigned natural (R48). -/
def fieldA (cmd : CommandWord) : Nat := (cmd.extractLsb' 16 16).toNat

/-! ## Decoding -/

/-- Why a word or byte is no instruction. -/
inductive DecodeError where
  /-- `rsv` is not 0 (R52, R53). -/
  | reservedBits
  /-- The opcode is none of the 17 (R52, R53). -/
  | reservedOpcode
  /-- The pin identifier is 0 or 5 to 127 (R55). -/
  | unknownPin
deriving DecidableEq, Repr

/-- The command an opcode names, with its operands (R48, R49, R51). -/
def decodeOpcode (cmd : CommandWord) (value : Word) : Option Instr :=
  match (fieldOp cmd).toNat with
  | 0x10 => some (.pnew (fieldS cmd) (fieldA cmd) (fieldF cmd))
  | 0x11 => some (.pget (fieldS cmd) (fieldA cmd))
  | 0x12 => some (.pset (fieldS cmd) (fieldA cmd) (fieldF cmd))
  | 0x13 => some (.prol (fieldS cmd) (fieldA cmd))
  | 0x14 => some (.pror (fieldS cmd) (fieldA cmd))
  | 0x15 => some (.praw (fieldS cmd))
  | 0x20 => some .cen
  | 0x21 => some .cdis
  | 0x22 => some .cisen
  | 0x23 => some (.cshift value (fieldA cmd))
  | 0x24 => some (.cwrite value)
  | 0x30 => some (.lcfg (fieldA cmd))
  | 0x31 => some (.lnewpat (fieldS cmd) (fieldF cmd))
  | 0x32 => some (.lset (fieldS cmd))
  | 0x33 => some .lon
  | 0x34 => some .loff
  | 0x35 => some .lison
  | _ => none

/-- `decode(CMD)` of R52: reserved bits first, then the opcode. The errors are the rule's `Illegal`. -/
def decodeCommand (cmd : CommandWord) (value : Word) : Except DecodeError Instr :=
  if fieldRsv cmd ≠ 0 then .error .reservedBits
  else
    match decodeOpcode cmd value with
    | some i => .ok i
    | none => .error .reservedOpcode

/-- The pin event a byte encodes: bit 7 the level, bits 6 to 0 the pin identifier (R54). -/
def decodePinEvent (byte : PinByte) : Except DecodeError Instr :=
  match (byte.extractLsb' 0 7).toNat with
  | 1 => .ok (.pinevData (byte.getLsbD 7))
  | 2 => .ok (.pinevControl (byte.getLsbD 7))
  | 3 => .ok (.pinevClock (byte.getLsbD 7))
  | 4 => .ok (.pinevLatch (byte.getLsbD 7))
  | _ => .error .unknownPin

/-- The request that carries an instruction whose bits are `w`, numbered as spec/opcode_table.json numbers them: a row of
8 bits is a pin-event byte, a row of 32 bits is a command word with `VALUE` in the bits above it (log 21). -/
def requestOfTableWord (nbits w : Nat) : Request :=
  if nbits ≤ 8 then .pinEvent (BitVec.ofNat 8 w)
  else .command (BitVec.ofNat 32 w) (BitVec.ofNat 64 (w >>> 32))

/-- The instruction a request asks for; the reset input asks for none. -/
def decodeRequest : Request → Option Instr
  | .command cmd value => (decodeCommand cmd value).toOption
  | .pinEvent byte => (decodePinEvent byte).toOption
  | .reset => none
  | .commandReset cmd value _ => (decodeCommand cmd value).toOption

/-- The instruction the decoder reads from table bits; `none` where it refuses. -/
def decodeTableWord (nbits w : Nat) : Option Instr := decodeRequest (requestOfTableWord nbits w)

/-! ## The fields each command uses (R49) -/

/-- The bits of the command word that mean something to the command: always `op` and `rsv`, and of `s`, `f` and `a` those
R49's table gives it. A pin event has no command word. -/
def usedBits : Instr → CommandWord
  | .pnew _ _ _ => 0xFFFFFFFF
  | .pget _ _ => 0xFFFFEFFF
  | .pset _ _ _ => 0xFFFFFFFF
  | .prol _ _ => 0xFFFFEFFF
  | .pror _ _ => 0xFFFFEFFF
  | .praw _ => 0x0000EFFF
  | .cen => 0x0000E0FF
  | .cdis => 0x0000E0FF
  | .cisen => 0x0000E0FF
  | .cshift _ _ => 0xFFFFE0FF
  | .cwrite _ => 0x0000E0FF
  | .lcfg _ => 0xFFFFE0FF
  | .lnewpat _ _ => 0x0000FFFF
  | .lset _ => 0x0000EFFF
  | .lon => 0x0000E0FF
  | .loff => 0x0000E0FF
  | .lison => 0x0000E0FF
  | .pinevData _ => 0
  | .pinevControl _ => 0
  | .pinevClock _ => 0
  | .pinevLatch _ => 0

/-- Whether the command takes `VALUE` (R46, R49). -/
def usesValue : Instr → Bool
  | .pnew _ _ _ => false
  | .pget _ _ => false
  | .pset _ _ _ => false
  | .prol _ _ => false
  | .pror _ _ => false
  | .praw _ => false
  | .cen => false
  | .cdis => false
  | .cisen => false
  | .cshift _ _ => true
  | .cwrite _ => true
  | .lcfg _ => false
  | .lnewpat _ _ => false
  | .lset _ => false
  | .lon => false
  | .loff => false
  | .lison => false
  | .pinevData _ => false
  | .pinevControl _ => false
  | .pinevClock _ => false
  | .pinevLatch _ => false

/-! ## Encoding -/

/-- `CMD = (a << 16) | (rsv << 13) | (f << 12) | (s << 8) | op`, with `rsv = 0` (R47). -/
def commandWord (op : Nat) (s : Slot) (f : Bool) (a : Nat) : CommandWord :=
  BitVec.ofNat 32 ((a <<< 16) ||| (f.toNat <<< 12) ||| (s.val <<< 8) ||| op)

/-- `PINEV = (level << 7) | pin_id` (R54). -/
def pinByte (id : Nat) (level : Bool) : PinByte := BitVec.ofNat 8 ((level.toNat <<< 7) ||| id)

/-- The request that presents an instruction; a field the command does not use is 0, and so is a `VALUE` it does not
use (R47, R49, R51, R55). -/
def encode : Instr → Request
  | .pnew p width on => .command (commandWord 0x10 p on width) 0
  | .pget p index => .command (commandWord 0x11 p false index) 0
  | .pset p index value => .command (commandWord 0x12 p value index) 0
  | .prol p count => .command (commandWord 0x13 p false count) 0
  | .pror p count => .command (commandWord 0x14 p false count) 0
  | .praw p => .command (commandWord 0x15 p false 0) 0
  | .cen => .command (commandWord 0x20 0 false 0) 0
  | .cdis => .command (commandWord 0x21 0 false 0) 0
  | .cisen => .command (commandWord 0x22 0 false 0) 0
  | .cshift value count => .command (commandWord 0x23 0 false count) value
  | .cwrite value => .command (commandWord 0x24 0 false 0) value
  | .lcfg lightCount => .command (commandWord 0x30 0 false lightCount) 0
  | .lnewpat p on => .command (commandWord 0x31 p on 0) 0
  | .lset p => .command (commandWord 0x32 p false 0) 0
  | .lon => .command (commandWord 0x33 0 false 0) 0
  | .loff => .command (commandWord 0x34 0 false 0) 0
  | .lison => .command (commandWord 0x35 0 false 0) 0
  | .pinevData level => .pinEvent (pinByte 1 level)
  | .pinevControl level => .pinEvent (pinByte 2 level)
  | .pinevClock level => .pinEvent (pinByte 3 level)
  | .pinevLatch level => .pinEvent (pinByte 4 level)

end Sys2Proof
end

