-- ==== Sys2Proof/Machine/State.lean ====
section
/-! DEFINITION. The state of the block and of the chain device it drives (10_state.md), the reasons a step can stop, and
the state right after reset (70_reset_and_hazards.md R126, 10_state.md section 7). -/

namespace Sys2Proof.Machine

/-! ## Levels and lines -/

/-- The level of a line, or one bit of the chain device: `0`, `1` or the unknown level `X` (R16, R17, R21). -/
inductive Level where
  | low
  | high
  | x
deriving DecidableEq, Repr

/-- The four output lines (R16, R31). -/
inductive Line where
  | data
  | control
  | clock
  | latch
deriving DecidableEq, Repr

/-- One level for each line: the block's records `pin.*` (R16), or the device's `seen.*` (R21). -/
structure Lines where
  data : Level
  clock : Level
  latch : Level
  control : Level
deriving DecidableEq, Repr

/-- Every line low, the reset levels of R18. -/
def Lines.allLow : Lines := { data := .low, clock := .low, latch := .low, control := .low }

/-- One PinSink operation, an entry of the pin trace: `set_<name>(level)` (R106) or `get_control` (R107). -/
inductive PinOp where
  | set (line : Line) (level : Bool)
  | getControl
deriving DecidableEq, Repr

/-! ## Patterns -/

/-- The contents of a slot with `valid = 1` (R12). Bit `i` of `bits` is light `i`. -/
structure Pattern where
  width : Nat
  bits : Word
deriving DecidableEq, Repr

/-! ## Responses -/

/-- The status of a response (60_exceptions.md R102). -/
inductive Status where
  | ok
  | illegalCommand
  | notConfigured
  | noPattern
  | invalidWidth
  | rangeError
  | configurationError
  | widthMismatch
  | backendIO
deriving DecidableEq, Repr

/-- The response of one command (R15, R50). `ioOp` and `ioDetail` are set only by `BackendIO`; unset is `none` (log 10). -/
structure Response where
  status : Status
  result : Word
  infoIndex : Info
  infoWidth : Info
  ioOp : Option Nat
  ioDetail : Option BackendError
deriving DecidableEq, Repr

/-! ## The chain device -/

/-- The external chain of shift registers (R21): `S` the shift register and `Q` the storage register, stage 0 first, and
the level last seen on each input. -/
structure Chain where
  S : List Level
  Q : List Level
  seen : Lines
deriving DecidableEq, Repr

/-! ## The state -/

/-- The machine. The spec's own state is `slots`, `cfg`, `pins` (R11) and `chain` (R21). `conf` is fixed for the machine
(log 1); `port`, `draws` and `drawn` are its inputs (log 5, log 2); `responses` and `trace` its outputs (log 6). -/
structure State where
  /-- The construction parameters (R5). -/
  conf : Conf
  /-- The 16 Pattern slots; `none` is `valid = 0` (R12, R13). -/
  slots : Vector (Option Pattern) 16
  /-- The light-array configuration's `light_count`; `none` is `valid = 0` (R14). -/
  cfg : Option Nat
  /-- The records of the output levels (R16). -/
  pins : Lines
  /-- The chain device (R21). -/
  chain : Chain
  /-- The requests not yet served, oldest first (R46). -/
  port : List Request
  /-- The responses given, oldest first (R50, R139). -/
  responses : List Response
  /-- The pin trace, oldest first (R106). -/
  trace : List PinOp
  /-- The environment's answers to the next pin operations, oldest first (R109). -/
  draws : List Draw
  /-- How many pin operations have been answered. -/
  drawn : Nat
deriving DecidableEq, Repr

/-- The block has no trap and no fault: an error is a status of the response (R101), so a step never ends in a fault. -/
inductive Fault where
deriving DecidableEq, Repr

/-- Why a step has no meaning. Each is safe: the model stops. -/
inductive Refusal where
  /-- Raised by `exec` for an instruction without a meaning yet. Safe. -/
  | notModelled (mnemonic : String)
  /-- Raised by `step` when `CHIP_COUNT` breaks the construction constraint: no such block exists and "a model refuses
  it" (00_scope.md R6). Safe. -/
  | notAnInstance
  /-- Raised by `step` for a pin-event byte with an identifier other than 1 to 4, which the block never produces and to
  which the spec gives no reaction (30_encoding.md R55, 93_implementation_defined.md U7). Safe. -/
  | unknownPinEvent
deriving DecidableEq, Repr

/-- Right after power-up and reset, for an instance with the parameters `c`: every slot empty, the array unconfigured,
all four records 0 (R13, R14, R18), the device's `S` and `Q` unknown and `seen` equal to the records (R22). -/
def State.construct (c : Conf) : State :=
  { conf := c
    slots := Vector.replicate 16 none
    cfg := none
    pins := Lines.allLow
    chain :=
      { S := List.replicate c.capacity .x
        Q := List.replicate c.capacity .x
        seen := Lines.allLow }
    port := []
    responses := []
    trace := []
    draws := []
    drawn := 0 }

/-- The machine right after reset, with one chip and an open readback (DESIGN CHOICE, log 1). -/
def State.reset : State := State.construct { chipCount := 1, readback := .sensed }

end Sys2Proof.Machine
end

