-- ==== Sys2Proof/Machine/Operands.lean ====
section
/-! DEFINITION. The values commands compute from their operands, on unbounded naturals as 00_scope.md R7 has them,
narrowed to a word at the end: masks, one light, rotations (41_pattern.md R62 to R67). -/

namespace Sys2Proof.Machine

/-- `mask(w) = (1 << w) - 1` (R12). -/
def mask (w : Nat) : Nat := (1 <<< w) - 1

/-- A natural as a `W`-bit word. -/
def toWord (n : Nat) : Word := BitVec.ofNat 64 n

/-- `zext_W` of one bit (R63, R78). -/
def bitWord (b : Bool) : Word := toWord b.toNat

/-- The driven level for a bit: 1 is high (R7). -/
def levelOf (b : Bool) : Level := if b then .high else .low

/-- `bits[i]`, whether light `i` is on (R7, R12). -/
def lightOn (bits : Word) (i : Nat) : Bool := bits.toNat.testBit i

/-- The bits of a new Pattern: all on or all off (R62). -/
def filled (w : Nat) (on : Bool) : Word := toWord (if on then mask w else 0)

/-- `(bits & (mask(width) - (1 << a))) | (f << a)` (R64). -/
def setLight (pat : Pattern) (a : Nat) (f : Bool) : Word :=
  toWord ((pat.bits.toNat &&& (mask pat.width - (1 <<< a))) ||| (f.toNat <<< a))

/-- The rotation count reduced to the width, `a mod w` (R65, R66, 90_conflicts.md C1). -/
def rotateCount (pat : Pattern) (a : Nat) : Nat := a % pat.width

/-- `((bits << c) | overflow) & mask(w)` with `overflow = bits >> (w - c)` (R65). -/
def rotateLeft (pat : Pattern) (a : Nat) : Word :=
  let c := rotateCount pat a
  let overflow := pat.bits.toNat >>> (pat.width - c)
  toWord (((pat.bits.toNat <<< c) ||| overflow) &&& mask pat.width)

/-- `(bits >> c) | underflow` with `underflow = (bits & ((1 << c) - 1)) << (w - c)` (R66). -/
def rotateRight (pat : Pattern) (a : Nat) : Word :=
  let c := rotateCount pat a
  let underflow := (pat.bits.toNat &&& mask c) <<< (pat.width - c)
  toWord ((pat.bits.toNat >>> c) ||| underflow)

/-- The pin operations of one CSHIFT iteration: clock low, the data bit, clock high (R79). -/
def shiftBit (bit : Bool) : List PinOp :=
  [.set .clock false, .set .data bit, .set .clock true]

/-- The iterations of CSHIFT from the value `v` on: each sends bit 0, then shifts `v` right by one (R79). -/
def shiftIterations : Nat → Nat → List PinOp
  | 0, _ => []
  | n + 1, v => shiftBit (v.testBit 0) ++ shiftIterations n (v >>> 1)

/-- The pin operations of CSHIFT with `VALUE` and the count `a`, in order (R79). -/
def shiftOps (value : Word) (a : Nat) : List PinOp :=
  [.set .latch false] ++ shiftIterations a value.toNat ++ [.set .latch true, .set .latch false]

end Sys2Proof.Machine
end

