-- ==== Sys2Proof/Machine/Flags.lean ====
section
/-! DEFINITION. The block has no flags (10_state.md R15): what a command writes instead is its response, a status and a
result (00_scope.md R9, 30_encoding.md R50, 60_exceptions.md R102). -/

namespace Sys2Proof.Machine

/-- The status code (R102). Codes 9 to 15 are never produced. -/
def statusCode : Status → BitVec 4
  | .ok => 0
  | .illegalCommand => 1
  | .notConfigured => 2
  | .noPattern => 3
  | .invalidWidth => 4
  | .rangeError => 5
  | .configurationError => 6
  | .widthMismatch => 7
  | .backendIO => 8

/-- `respond(d)`: status `OK` and the result `d` (R8, R50). -/
def okResponse (result : Word) : Response :=
  { status := .ok, result := result, infoIndex := 0, infoWidth := 0, ioOp := none, ioDetail := none }

/-- An error that records nothing: result 0 and every other field unset (R50, R102). -/
def errorResponse (status : Status) : Response :=
  { status := status, result := 0, infoIndex := 0, infoWidth := 0, ioOp := none, ioDetail := none }

/-- `RangeError(index, width)`: records the offending index and the slot's width (R50, R63). -/
def rangeResponse (index width : Nat) : Response :=
  { errorResponse .rangeError with infoIndex := BitVec.ofNat 16 index, infoWidth := BitVec.ofNat 16 width }

/-- `BackendIO`: records the failed operation's position and the backend's error unchanged (R50, R108). -/
def backendResponse (op : Nat) (e : BackendError) : Response :=
  { errorResponse .backendIO with ioOp := some op, ioDetail := some e }

end Sys2Proof.Machine
end

