-- ==== Sys2Proof/Machine/Ops.lean ====
section
/-! DEFINITION. The named operations over the state: slots, responses, the error that ends a command, PinSink operations
and the chain device's reaction to them (60_exceptions.md R101, R106 to R113), sequences of pin operations, a command's
effect and its completion, reset (70_reset_and_hazards.md R126, R128). -/

namespace Sys2Proof.Machine

/-! ## Slots -/

/-- `slot[p]`; `none` while `valid = 0` (R8, R13). -/
def readSlot (s : State) (p : Slot) : Option Pattern := s.slots[p.val]

/-- `slot[p] <- r` with `valid = 1` (R8). -/
def writeSlot (s : State) (p : Slot) (pat : Pattern) : State :=
  { s with slots := s.slots.set p.val (some pat) }

/-! ## Responses and errors -/

/-- The response goes to the host (R46, R50). -/
def respond (s : State) (r : Response) : State := { s with responses := s.responses ++ [r] }

/-- TAKING AN EXCEPTION, which in this block is `raise E(info)`: the command ends with the error's response; nothing is
saved, no vector is taken and no mode changes (R101, R116). -/
def raise (s : State) (r : Response) : State := respond s r

/-! ## Lines -/

/-- The level of one line. -/
def lineLevel (l : Lines) : Line → Level
  | .data => l.data
  | .control => l.control
  | .clock => l.clock
  | .latch => l.latch

/-- One line takes a level; the others keep theirs. -/
def setLine (l : Lines) (line : Line) (level : Level) : Lines :=
  match line with
  | .data => { l with data := level }
  | .control => { l with control := level }
  | .clock => { l with clock := level }
  | .latch => { l with latch := level }

/-! ## The chain device -/

/-- The sampling edge: every bit moves one stage away from the data input and stage 0 takes `seen.data`; the bit of the
last stage leaves the chain (R111). -/
def chainShift (capacity : Nat) (c : Chain) : Chain :=
  { c with S := (c.seen.data :: c.S).take capacity }

/-- The latch edge: `Q[k] <- S[k]` for every `k` at once (R112). -/
def chainLatch (c : Chain) : Chain := { c with Q := c.S }

/-- Whether driving a line to `level` from the level `before` is a rising edge to the device; from the unknown level it
is the draw `edge` (R111, R112, R113). -/
def risingEdge (before : Level) (level edge : Bool) : Bool :=
  match level, before with
  | false, _ => false
  | true, .low => true
  | true, .high => false
  | true, .x => edge

/-- What a rising edge of a line does to the device; only clock and latch edges do anything (R110, R111, R112). -/
def chainEdge (capacity : Nat) (line : Line) (c : Chain) : Chain :=
  match line with
  | .data => c
  | .control => c
  | .clock => chainShift capacity c
  | .latch => chainLatch c

/-- The device's `S` and `Q` after a line is driven to `level`; its `seen` not yet (R110 to R113). -/
def chainDriven (capacity : Nat) (line : Line) (level edge : Bool) (c : Chain) : Chain :=
  if risingEdge (lineLevel c.seen line) level edge then chainEdge capacity line c else c

/-- The device last saw `level` on a line. -/
def chainSees (c : Chain) (line : Line) (level : Level) : Chain :=
  { c with seen := setLine c.seen line level }

/-- The device's reaction to a successful `PinSet` (R110 to R113). -/
def chainReacts (capacity : Nat) (line : Line) (level edge : Bool) (c : Chain) : Chain :=
  chainSees (chainDriven capacity line level edge c) line (levelOf level)

/-- The device after a failed `PinSet`: it reacted as if the operation had succeeded or not at all (the draw `reacted`),
and the level it saw is unknown (R108). -/
def chainFails (capacity : Nat) (line : Line) (level edge reacted : Bool) (c : Chain) : Chain :=
  chainSees (if reacted then chainDriven capacity line level edge c else c) line .x

/-! ## PinSink operations -/

/-- The environment's answer to the `j`-th pin operation from now: the listed one, or the free value (R109; log 2). -/
def drawAt (s : State) (j : Nat) : Draw := (s.draws[j]?).getD (Config.freeDraw (s.drawn + j))

/-- The operation is issued: it goes to the trace (R106, R107) and takes the next answer. -/
def issueOp (s : State) (op : PinOp) : State :=
  { s with trace := s.trace ++ [op], draws := s.draws.tail, drawn := s.drawn + 1 }

/-- A `PinSet` that succeeds: the record takes the level and the device reacts (R106). -/
def setSucceeds (line : Line) (level : Bool) (d : Draw) (s : State) : State :=
  { issueOp s (.set line level) with
      pins := setLine s.pins line (levelOf level)
      chain := chainReacts s.conf.capacity line level d.edge s.chain }

/-- A `PinSet` that fails: the record becomes unknown, and the device reacted or not (R108). -/
def setFails (line : Line) (level : Bool) (d : Draw) (s : State) : State :=
  { issueOp s (.set line level) with
      pins := setLine s.pins line .x
      chain := chainFails s.conf.capacity line level d.edge d.reacted s.chain }

/-- `PinSet(name, level)` (R106, R108). -/
def pinSet (line : Line) (level : Bool) (s : State) : State × IoResult :=
  match (drawAt s 0).io with
  | .ok => (setSucceeds line level (drawAt s 0) s, .ok)
  | .failed e => (setFails line level (drawAt s 0) s, .failed e)

/-- `CTL_READBACK(pin.control, env)`: loopback returns the record, and any level when it is unknown; another platform
returns whatever it supplies (R20). -/
def ctlReadback (r : Readback) (control : Level) (sensed : Bool) : Bool :=
  match r, control with
  | .loopback, .low => false
  | .loopback, .high => true
  | .loopback, .x => sensed
  | .sensed, _ => sensed

/-- `PinGet()`: the level read, or the failure; the block's and the device's state stay (R107, R108). -/
def pinGet (s : State) : State × Except BackendError Bool :=
  match (drawAt s 0).io with
  | .ok => (issueOp s .getControl, .ok (ctlReadback s.conf.readback s.pins.control (drawAt s 0).sensed))
  | .failed e => (issueOp s .getControl, .error e)

/-- One operation of a command, with the value it leaves for `respond`: the level of a `PinGet` (R78), 0 for a
`PinSet`. -/
def pinOp (op : PinOp) (s : State) : State × Except BackendError Word :=
  match op with
  | .set line level =>
    match pinSet line level s with
    | (t, .ok) => (t, .ok 0)
    | (t, .failed e) => (t, .error e)
  | .getControl =>
    match pinGet s with
    | (t, .ok level) => (t, .ok (bitWord level))
    | (t, .error e) => (t, .error e)

/-- How a sequence of pin operations ends. -/
inductive PinRun where
  /-- All succeeded; `result` is what the last one left. -/
  | completed (s : State) (result : Word)
  /-- The operation at position `op` failed; none after it was issued. -/
  | failed (s : State) (op : Nat) (e : BackendError)
deriving DecidableEq, Repr

/-- The operations in order, each after the one before has returned, up to the first that fails (R37, R108). `k` counts
the operations issued so far, `result` is what the last one left. -/
def runPins : List PinOp → Nat → Word → State → PinRun
  | [], _, result, s => .completed s result
  | op :: ops, k, _, s =>
    match pinOp op s with
    | (t, .ok value) => runPins ops (k + 1) value t
    | (t, .error e) => .failed t k e

/-- A command whose effect is a sequence of pin operations: `respond` when all succeed, `BackendIO` at the first failure
(R79, R108). -/
def issueAll (ops : List PinOp) (s : State) : State :=
  match runPins ops 0 0 s with
  | .completed t result => respond t (okResponse result)
  | .failed t k e => raise t (backendResponse k e)

/-! ## Commands -/

/-- What a command does once its checks are made: each rule of 41_pattern.md, 42_chain.md and 43_lightarray.md is one of
these three. -/
inductive Effect where
  /-- It writes slots or the configuration, giving `t`, and responds with `result`. -/
  | writes (t : State) (result : Word)
  /-- It ends with an error before it writes or issues anything (R101). -/
  | raises (r : Response)
  /-- It issues these pin operations. -/
  | pins (ops : List PinOp)
deriving DecidableEq, Repr

/-- The command executes to completion (R36, R101). -/
def commit (e : Effect) (s : State) : State :=
  match e with
  | .writes t result => respond t (okResponse result)
  | .raises r => raise s r
  | .pins ops => issueAll ops s

/-- `if cfg.valid == 0: raise NotConfigured()`, else the rest of the rule, given `light_count` (R90). -/
def whenConfigured (s : State) (rest : Nat → Effect) : Effect :=
  match s.cfg with
  | none => .raises (errorResponse .notConfigured)
  | some lightCount => rest lightCount

/-- `if sl.valid == 0: raise NoPattern()`, else the rest of the rule, given the slot's Pattern (R61). -/
def whenPattern (s : State) (p : Slot) (rest : Pattern → Effect) : Effect :=
  match readSlot s p with
  | none => .raises (errorResponse .noPattern)
  | some pat => rest pat

/-! ## Reset -/

/-- The reset input: every piece of the block's state takes its reset value; no pin operation, no trace entry; the
device's `S` and `Q` stay and it sees every line go to 0 (R126, R128; log 8). -/
def applyReset (s : State) : State :=
  { s with
      slots := Vector.replicate 16 none
      cfg := none
      pins := Lines.allLow
      chain := { s.chain with seen := Lines.allLow } }

/-- The pin operations a command's effect issues. -/
def effectOps : Effect → List PinOp
  | .writes _ _ => []
  | .raises _ => []
  | .pins ops => ops

/-- The command executes, and reset arrives after it has issued `issued` pin operations: it is abandoned without a
response and the operations issued keep their effects on the device (R128). If the command ended before, reset follows
its response (log 7). -/
def abandon (e : Effect) (issued : Nat) (s : State) : State :=
  if issued ≤ (effectOps e).length then
    match runPins ((effectOps e).take issued) 0 0 s with
    | .completed t _ => applyReset t
    | .failed _ _ _ => applyReset (commit e s)
  else applyReset (commit e s)

end Sys2Proof.Machine
end

