-- ==== Sys2Proof/Machine/ChainSequencer.lean ====
section
/-! DEFINITION. The Chain commands (42_chain.md R76 to R80). None reads or writes a slot or the configuration (R86). -/

namespace Sys2Proof.Machine

/-- CEN: one `PinSet(control, 1)`, issued even when the line is already high (R76, R37). -/
def cenEffect (_ : State) : Effect := .pins [.set .control true]

/-- CDIS: one `PinSet(control, 0)` (R77). -/
def cdisEffect (_ : State) : Effect := .pins [.set .control false]

/-- CISEN: one `PinGet`, whose level is the result (R78). -/
def cisenEffect (_ : State) : Effect := .pins [.getControl]

/-- CSHIFT (R79). -/
def cshiftEffect (value : Word) (count : Nat) (_ : State) : Effect := .pins (shiftOps value count)

/-- CWRITE: CSHIFT with the count `CAPACITY` (R80). -/
def cwriteEffect (value : Word) (s : State) : Effect := cshiftEffect value s.conf.capacity s

def execCen (s : State) : Host.Outcome State Fault Refusal :=
  .next (commit (cenEffect s) s)

def execCdis (s : State) : Host.Outcome State Fault Refusal :=
  .next (commit (cdisEffect s) s)

def execCisen (s : State) : Host.Outcome State Fault Refusal :=
  .next (commit (cisenEffect s) s)

def execCshift (value : Word) (count : Nat) (s : State) : Host.Outcome State Fault Refusal :=
  .next (commit (cshiftEffect value count s) s)

def execCwrite (value : Word) (s : State) : Host.Outcome State Fault Refusal :=
  .next (commit (cwriteEffect value s) s)

end Sys2Proof.Machine
end

