-- ==== Sys2Proof/Machine/LightArray.lean ====
section
/-! DEFINITION. The LightArray commands (43_lightarray.md R90 to R96). -/

namespace Sys2Proof.Machine

/-- LCFG (R91). -/
def lcfgEffect (lightCount : Nat) (s : State) : Effect :=
  if lightCount = 0 ∨ lightCount > s.conf.capacity then .raises (errorResponse .configurationError)
  else .writes { s with cfg := some lightCount } 0

/-- LNEWPAT (R92). -/
def lnewpatEffect (p : Slot) (on : Bool) (s : State) : Effect :=
  whenConfigured s fun lightCount =>
    .writes (writeSlot s p { width := lightCount, bits := filled lightCount on }) 0

/-- LSET: the checks, then CWRITE of the slot's bits (R93). -/
def lsetEffect (p : Slot) (s : State) : Effect :=
  whenConfigured s fun lightCount =>
    whenPattern s p fun pat =>
      if pat.width ≠ lightCount then .raises (errorResponse .widthMismatch)
      else cwriteEffect pat.bits s

/-- LON: CEN after the configuration check (R94). -/
def lonEffect (s : State) : Effect := whenConfigured s fun _ => cenEffect s

/-- LOFF: CDIS after the configuration check (R95). -/
def loffEffect (s : State) : Effect := whenConfigured s fun _ => cdisEffect s

/-- LISON: CISEN after the configuration check (R96). -/
def lisonEffect (s : State) : Effect := whenConfigured s fun _ => cisenEffect s

def execLcfg (lightCount : Nat) (s : State) : Host.Outcome State Fault Refusal :=
  .next (commit (lcfgEffect lightCount s) s)

def execLnewpat (p : Slot) (on : Bool) (s : State) : Host.Outcome State Fault Refusal :=
  .next (commit (lnewpatEffect p on s) s)

def execLset (p : Slot) (s : State) : Host.Outcome State Fault Refusal :=
  .next (commit (lsetEffect p s) s)

def execLon (s : State) : Host.Outcome State Fault Refusal :=
  .next (commit (lonEffect s) s)

def execLoff (s : State) : Host.Outcome State Fault Refusal :=
  .next (commit (loffEffect s) s)

def execLison (s : State) : Host.Outcome State Fault Refusal :=
  .next (commit (lisonEffect s) s)

end Sys2Proof.Machine
end

