-- ==== Sys2Proof/Machine/Pattern.lean ====
section
/-! DEFINITION. The Pattern commands (41_pattern.md R61 to R67). None issues a pin operation. -/

namespace Sys2Proof.Machine

/-- PNEW (R62). -/
def pnewEffect (p : Slot) (width : Nat) (on : Bool) (s : State) : Effect :=
  if width = 0 ∨ width > Config.wordBits then .raises (errorResponse .invalidWidth)
  else .writes (writeSlot s p { width := width, bits := filled width on }) 0

/-- PGET (R63). -/
def pgetEffect (p : Slot) (index : Nat) (s : State) : Effect :=
  whenPattern s p fun pat =>
    if index ≥ pat.width then .raises (rangeResponse index pat.width)
    else .writes s (bitWord (lightOn pat.bits index))

/-- PSET (R64). -/
def psetEffect (p : Slot) (index : Nat) (value : Bool) (s : State) : Effect :=
  whenPattern s p fun pat =>
    if index ≥ pat.width then .raises (rangeResponse index pat.width)
    else .writes (writeSlot s p { pat with bits := setLight pat index value }) 0

/-- PROL (R65). -/
def prolEffect (p : Slot) (count : Nat) (s : State) : Effect :=
  whenPattern s p fun pat => .writes (writeSlot s p { pat with bits := rotateLeft pat count }) 0

/-- PROR (R66). -/
def prorEffect (p : Slot) (count : Nat) (s : State) : Effect :=
  whenPattern s p fun pat => .writes (writeSlot s p { pat with bits := rotateRight pat count }) 0

/-- PRAW (R67). -/
def prawEffect (p : Slot) (s : State) : Effect :=
  whenPattern s p fun pat => .writes s pat.bits

def execPnew (p : Slot) (width : Nat) (on : Bool) (s : State) : Host.Outcome State Fault Refusal :=
  .next (commit (pnewEffect p width on s) s)

def execPget (p : Slot) (index : Nat) (s : State) : Host.Outcome State Fault Refusal :=
  .next (commit (pgetEffect p index s) s)

def execPset (p : Slot) (index : Nat) (value : Bool) (s : State) : Host.Outcome State Fault Refusal :=
  .next (commit (psetEffect p index value s) s)

def execProl (p : Slot) (count : Nat) (s : State) : Host.Outcome State Fault Refusal :=
  .next (commit (prolEffect p count s) s)

def execPror (p : Slot) (count : Nat) (s : State) : Host.Outcome State Fault Refusal :=
  .next (commit (prorEffect p count s) s)

def execPraw (p : Slot) (s : State) : Host.Outcome State Fault Refusal :=
  .next (commit (prawEffect p s) s)

end Sys2Proof.Machine
end

