-- ==== Sys2Proof/Machine/PinEvent.lean ====
section
/-! DEFINITION. The pin events (30_encoding.md R54, R55): each is one `PinSet` (60_exceptions.md R106). A pin event belongs
to no command, so it ends no command and no response is given (log 4). -/

namespace Sys2Proof.Machine

/-- PINEV.data (R106, R110). -/
def execPinevData (level : Bool) (s : State) : Host.Outcome State Fault Refusal :=
  .next (pinSet .data level s).1

/-- PINEV.control (R106, R110). -/
def execPinevControl (level : Bool) (s : State) : Host.Outcome State Fault Refusal :=
  .next (pinSet .control level s).1

/-- PINEV.clock (R106, R111). -/
def execPinevClock (level : Bool) (s : State) : Host.Outcome State Fault Refusal :=
  .next (pinSet .clock level s).1

/-- PINEV.latch (R106, R112). -/
def execPinevLatch (level : Bool) (s : State) : Host.Outcome State Fault Refusal :=
  .next (pinSet .latch level s).1

end Sys2Proof.Machine
end

