-- ==== Sys2Proof/Machine/Dispatch.lean ====
section
/-! DEFINITION. Each instruction's meaning (30_encoding.md R51, R55). -/

namespace Sys2Proof.Machine

def exec (i : Instr) (s : State) : Host.Outcome State Fault Refusal :=
  match i with
  | .pnew p width on => Sys2Proof.Machine.execPnew p width on s
  | .pget p index => Sys2Proof.Machine.execPget p index s
  | .pset p index value => Sys2Proof.Machine.execPset p index value s
  | .prol p count => Sys2Proof.Machine.execProl p count s
  | .pror p count => Sys2Proof.Machine.execPror p count s
  | .praw p => Sys2Proof.Machine.execPraw p s
  | .cen => Sys2Proof.Machine.execCen s
  | .cdis => Sys2Proof.Machine.execCdis s
  | .cisen => Sys2Proof.Machine.execCisen s
  | .cshift value count => Sys2Proof.Machine.execCshift value count s
  | .cwrite value => Sys2Proof.Machine.execCwrite value s
  | .lcfg lightCount => Sys2Proof.Machine.execLcfg lightCount s
  | .lnewpat p on => Sys2Proof.Machine.execLnewpat p on s
  | .lset p => Sys2Proof.Machine.execLset p s
  | .lon => Sys2Proof.Machine.execLon s
  | .loff => Sys2Proof.Machine.execLoff s
  | .lison => Sys2Proof.Machine.execLison s
  | .pinevData level => Sys2Proof.Machine.execPinevData level s
  | .pinevControl level => Sys2Proof.Machine.execPinevControl level s
  | .pinevClock level => Sys2Proof.Machine.execPinevClock level s
  | .pinevLatch level => Sys2Proof.Machine.execPinevLatch level s

end Sys2Proof.Machine
end

