-- ==== Sys2Proof/Machine/Serve.lean ====
section
/-! DEFINITION. What one request does (30_encoding.md R46, R52, 60_exceptions.md R103, 70_reset_and_hazards.md R126,
R128). -/

namespace Sys2Proof.Machine

/-- The effect of a command, for the case that reset arrives while it executes (R128). A pin event is one `PinSet`. -/
def effectOf (i : Instr) (s : State) : Effect :=
  match i with
  | .pnew p width on => pnewEffect p width on s
  | .pget p index => pgetEffect p index s
  | .pset p index value => psetEffect p index value s
  | .prol p count => prolEffect p count s
  | .pror p count => prorEffect p count s
  | .praw p => prawEffect p s
  | .cen => cenEffect s
  | .cdis => cdisEffect s
  | .cisen => cisenEffect s
  | .cshift value count => cshiftEffect value count s
  | .cwrite value => cwriteEffect value s
  | .lcfg lightCount => lcfgEffect lightCount s
  | .lnewpat p on => lnewpatEffect p on s
  | .lset p => lsetEffect p s
  | .lon => lonEffect s
  | .loff => loffEffect s
  | .lison => lisonEffect s
  | .pinevData level => .pins [.set .data level]
  | .pinevControl level => .pins [.set .control level]
  | .pinevClock level => .pins [.set .clock level]
  | .pinevLatch level => .pins [.set .latch level]

/-- The effect of an `Illegal` word: status `IllegalCommand`, no state change, no pin operation (R52, R103). -/
def illegalEffect : Effect := .raises (errorResponse .illegalCommand)

/-- A command word with its `VALUE` (R46, R52, R103). -/
def serveCommand (cmd : CommandWord) (value : Word) (s : State) : Host.Outcome State Fault Refusal :=
  match decodeCommand cmd value with
  | .ok i => exec i s
  | .error _ => .next (commit illegalEffect s)

/-- A pin-event byte; the spec gives no reaction to an unknown identifier (R54, R55, U7). -/
def servePinEvent (byte : PinByte) (s : State) : Host.Outcome State Fault Refusal :=
  match decodePinEvent byte with
  | .ok i => exec i s
  | .error _ => .refused .unknownPinEvent

/-- A command during which reset arrives after `issued` of its pin operations (R128). -/
def serveCommandReset (cmd : CommandWord) (value : Word) (issued : Nat) (s : State) : State :=
  match decodeCommand cmd value with
  | .ok i => abandon (effectOf i s) issued s
  | .error _ => abandon illegalEffect issued s

/-- One request. -/
def serve (r : Request) (s : State) : Host.Outcome State Fault Refusal :=
  match r with
  | .command cmd value => serveCommand cmd value s
  | .pinEvent byte => servePinEvent byte s
  | .reset => .next (applyReset s)
  | .commandReset cmd value issued => .next (serveCommandReset cmd value issued s)

/-- The oldest request leaves the port and is served; with none, the block waits and nothing changes (R46, R127). -/
def serveNext (s : State) : Host.Outcome State Fault Refusal :=
  match s.port with
  | [] => .next s
  | r :: rest => serve r { s with port := rest }

/-- `serveNext` of an instance of the block; a configuration outside the construction constraint is none (R6). -/
def serveInstance (s : State) : Host.Outcome State Fault Refusal :=
  if s.conf.ok then serveNext s else .refused .notAnInstance

/-- The request becomes the next one the block serves. -/
def presentFirst (s : State) (r : Request) : State := { s with port := r :: s.port }

end Sys2Proof.Machine
end

