-- ==== Sys2Proof/Machine/Step.lean ====
section
/-! DEFINITION. One step of the machine: one request of the command port, served to completion (20_memory.md R36). -/

namespace Sys2Proof.Machine

/-- One step. -/
def step (s : State) : Host.Outcome State Fault Refusal := serveInstance s

/-- The state in which the very next step runs the instruction whose table bits are `w` (log 5, log 21). -/
def State.withFetchWord (s : State) (nbits w : Nat) : State := presentFirst s (requestOfTableWord nbits w)

end Sys2Proof.Machine
end

