-- ==== Sys2Proof/Machine/Assembler.lean ====
section
/-! DEFINITION. The assembly syntax of 30_encoding.md R57 with its default operands, and the pseudo-instructions of R58.
What the rules leave open (spaces, letter case, operands that do not fit) is log 15. -/

namespace Sys2Proof.Machine

/-- One assembly line (R57, R58); an operand the line may omit is an Option. -/
inductive Asm where
  | pnew (p width : Nat) (on : Bool)
  | pget (p index : Nat)
  | pset (p index : Nat) (value : Bool)
  | prol (p : Nat) (count : Option Nat)
  | pror (p : Nat) (count : Option Nat)
  | praw (p : Nat)
  | cen
  | cdis
  | cisen
  | cshift (value count : Nat)
  | cwrite (value : Nat)
  | lcfg (lightCount : Nat)
  | lnewpat (p : Nat) (on : Option Bool)
  | lset (p : Nat)
  | lon
  | loff
  | lison
  | pon (p index : Nat)
  | poff (p index : Nat)
deriving DecidableEq, Repr

/-- A slot number, if it is one. -/
def asmSlot (p : Nat) : Option Slot := if h : p < 16 then some ⟨p, h⟩ else none

/-- A `VALUE` operand, if it fits. -/
def asmValue (v : Nat) : Option Word := if v < 2 ^ 64 then some (BitVec.ofNat 64 v) else none

/-- The instruction of a line before its operands are checked: an omitted count is 1 and an omitted state is off (R57);
PON and POFF are PSET of 1 and 0 (R58). -/
def asmInstr : Asm → Option Instr
  | .pnew p width on => (asmSlot p).map fun q => .pnew q width on
  | .pget p index => (asmSlot p).map fun q => .pget q index
  | .pset p index value => (asmSlot p).map fun q => .pset q index value
  | .prol p count => (asmSlot p).map fun q => .prol q (count.getD 1)
  | .pror p count => (asmSlot p).map fun q => .pror q (count.getD 1)
  | .praw p => (asmSlot p).map fun q => .praw q
  | .cen => some .cen
  | .cdis => some .cdis
  | .cisen => some .cisen
  | .cshift value count => (asmValue value).map fun v => .cshift v count
  | .cwrite value => (asmValue value).map fun v => .cwrite v
  | .lcfg lightCount => some (.lcfg lightCount)
  | .lnewpat p on => (asmSlot p).map fun q => .lnewpat q (on.getD false)
  | .lset p => (asmSlot p).map fun q => .lset q
  | .lon => some .lon
  | .loff => some .loff
  | .lison => some .lison
  | .pon p index => (asmSlot p).map fun q => .pset q index true
  | .poff p index => (asmSlot p).map fun q => .pset q index false

/-- The instruction a line assembles to, if its operands fit their fields. -/
def assemble (line : Asm) : Option Instr := (asmInstr line).filter Instr.wf

/-! ## Text -/

/-- The value of a digit character. -/
def digitValue (c : Char) : Option Nat :=
  if '0' ≤ c ∧ c ≤ '9' then some (c.toNat - '0'.toNat)
  else if 'a' ≤ c ∧ c ≤ 'f' then some (c.toNat - 'a'.toNat + 10)
  else if 'A' ≤ c ∧ c ≤ 'F' then some (c.toNat - 'A'.toNat + 10)
  else none

/-- Digits of a base, most significant first, after the value `acc`. -/
def digitsFrom (base : Nat) : Nat → List Char → Option Nat
  | acc, [] => some acc
  | acc, c :: cs =>
    match digitValue c with
    | none => none
    | some d => if d < base then digitsFrom base (acc * base + d) cs else none

/-- At least one digit of a base. -/
def digits (base : Nat) : List Char → Option Nat
  | [] => none
  | c :: cs => digitsFrom base 0 (c :: cs)

/-- A number: decimal, hexadecimal with `0x`, binary with `0b` (R57). -/
def parseNumber : List Char → Option Nat
  | '0' :: 'x' :: cs => digits 16 cs
  | '0' :: 'b' :: cs => digits 2 cs
  | cs => digits 10 cs

/-- A slot operand, `s<p>`; the number is decimal. -/
def parseSlot : List Char → Option Nat
  | 's' :: cs => digits 10 cs
  | _ => none

/-- `on` or `off` (R57). -/
def parseState (cs : List Char) : Option Bool :=
  if cs = ['o', 'n'] then some true else if cs = ['o', 'f', 'f'] then some false else none

/-- `0` or `1`, the bit of PSET (R57). -/
def parseBit (cs : List Char) : Option Bool :=
  if cs = ['0'] then some false else if cs = ['1'] then some true else none

/-- A text without the spaces at its ends. -/
def trimSpaces (cs : List Char) : List Char :=
  ((cs.dropWhile (· = ' ')).reverse.dropWhile (· = ' ')).reverse

/-- The pieces between commas; always at least one. -/
def splitCommas : List Char → List (List Char)
  | [] => [[]]
  | c :: cs =>
    match splitCommas cs with
    | [] => [[c]]
    | piece :: pieces => if c = ',' then [] :: piece :: pieces else (c :: piece) :: pieces

/-- The operands of a line: none at all when only spaces stand there. -/
def operandsOf (cs : List Char) : List (List Char) :=
  if trimSpaces cs = [] then [] else (splitCommas cs).map trimSpaces

/-- A line's mnemonic and operands. -/
def lineParts (cs : List Char) : List Char × List (List Char) :=
  let body := trimSpaces cs
  (body.takeWhile (· ≠ ' '), operandsOf (body.dropWhile (· ≠ ' ')))

/-- A line with the slot operand alone. -/
def parse1 (f : Nat → Asm) : List (List Char) → Option Asm
  | [p] => (parseSlot p).map f
  | _ => none

/-- A line with a slot and a number. -/
def parse2 (f : Nat → Nat → Asm) : List (List Char) → Option Asm
  | [p, n] => (parseSlot p).bind fun q => (parseNumber n).map (f q)
  | _ => none

/-- A line with a slot, a number and a two-way operand. -/
def parse3 (f : Nat → Nat → Bool → Asm) (last : List Char → Option Bool) : List (List Char) → Option Asm
  | [p, n, b] => (parseSlot p).bind fun q => (parseNumber n).bind fun m => (last b).map (f q m)
  | _ => none

/-- A line with a slot and an operand that may be omitted. -/
def parseOptional {α : Type} (f : Nat → Option α → Asm) (last : List Char → Option α) :
    List (List Char) → Option Asm
  | [p] => (parseSlot p).map fun q => f q none
  | [p, n] => (parseSlot p).bind fun q => (last n).map fun m => f q (some m)
  | _ => none

/-- A line with one number. -/
def parseOne (f : Nat → Asm) : List (List Char) → Option Asm
  | [n] => (parseNumber n).map f
  | _ => none

/-- A line with two numbers. -/
def parseTwo (f : Nat → Nat → Asm) : List (List Char) → Option Asm
  | [n, m] => (parseNumber n).bind fun v => (parseNumber m).map (f v)
  | _ => none

/-- A line without operands. -/
def parseBare (line : Asm) : List (List Char) → Option Asm
  | [] => some line
  | _ => none

/-- A line's operands by its mnemonic (R57, R58). -/
def parseOperands (mnemonic : List Char) (ops : List (List Char)) : Option Asm :=
  if mnemonic = ['P', 'N', 'E', 'W'] then parse3 .pnew parseState ops
  else if mnemonic = ['P', 'G', 'E', 'T'] then parse2 .pget ops
  else if mnemonic = ['P', 'S', 'E', 'T'] then parse3 .pset parseBit ops
  else if mnemonic = ['P', 'R', 'O', 'L'] then parseOptional .prol parseNumber ops
  else if mnemonic = ['P', 'R', 'O', 'R'] then parseOptional .pror parseNumber ops
  else if mnemonic = ['P', 'R', 'A', 'W'] then parse1 .praw ops
  else if mnemonic = ['C', 'E', 'N'] then parseBare .cen ops
  else if mnemonic = ['C', 'D', 'I', 'S'] then parseBare .cdis ops
  else if mnemonic = ['C', 'I', 'S', 'E', 'N'] then parseBare .cisen ops
  else if mnemonic = ['C', 'S', 'H', 'I', 'F', 'T'] then parseTwo .cshift ops
  else if mnemonic = ['C', 'W', 'R', 'I', 'T', 'E'] then parseOne .cwrite ops
  else if mnemonic = ['L', 'C', 'F', 'G'] then parseOne .lcfg ops
  else if mnemonic = ['L', 'N', 'E', 'W', 'P', 'A', 'T'] then parseOptional .lnewpat parseState ops
  else if mnemonic = ['L', 'S', 'E', 'T'] then parse1 .lset ops
  else if mnemonic = ['L', 'O', 'N'] then parseBare .lon ops
  else if mnemonic = ['L', 'O', 'F', 'F'] then parseBare .loff ops
  else if mnemonic = ['L', 'I', 'S', 'O', 'N'] then parseBare .lison ops
  else if mnemonic = ['P', 'O', 'N'] then parse2 .pon ops
  else if mnemonic = ['P', 'O', 'F', 'F'] then parse2 .poff ops
  else none

/-- A line of text as an assembly line (R57). -/
def parseLine (cs : List Char) : Option Asm := parseOperands (lineParts cs).1 (lineParts cs).2

/-- A line of text as the request that presents its instruction. -/
def assembleLine (cs : List Char) : Option Request := ((parseLine cs).bind assemble).map encode

end Sys2Proof.Machine
end

