-- ==== Sys2Proof/Machine/Observe.lean ====
section
/-! DEFINITION. What can be observed of a state (60_exceptions.md R120): a slot's rendering (41_pattern.md R70), what the
lights show (10_state.md R23), the pin trace on the emulator's wire (30_encoding.md R54, 60_exceptions.md R114). None of
these is read by a command. -/

namespace Sys2Proof.Machine

/-! ## Rendering -/

/-- The character of one light (R70). -/
def lightChar (on : Bool) : Char := if on then '1' else '0'

/-- The `width` characters of a Pattern, most significant light first: character `k` is light `width - 1 - k` (R70). -/
def renderChars (pat : Pattern) : List Char :=
  (List.range pat.width).map fun k => lightChar (lightOn pat.bits (pat.width - 1 - k))

/-- `render(p)`; undefined for an empty slot (R70, U8). -/
def render (s : State) (p : Slot) : Option String :=
  (readSlot s p).map fun pat => String.ofList (renderChars pat)

/-! ## The lights -/

/-- What one output of the chain shows (R23). -/
inductive Shown where
  /-- The storage register's bit. -/
  | stored (level : Level)
  /-- No pattern. -/
  | blank
deriving DecidableEq, Repr

/-- What `visible(k)` may be: `Q[k]` when the control line is high, `blank` when it is low, either when it is unknown; no
observation for a stage the chain does not have (R23; log 11). -/
def visible (s : State) (k : Nat) : List Shown :=
  match s.chain.Q[k]? with
  | none => []
  | some q =>
    match s.pins.control with
    | .high => [.stored q]
    | .low => [.blank]
    | .x => [.stored q, .blank]

/-- The chip that holds stage `k`, counted from the controller (R21). -/
def chipOfStage (k : Nat) : Nat := k / Config.chipBits

/-- The physical position of stage `k` (R23, D25). -/
def positionOfStage (s : State) (k : Fin s.conf.capacity) : Fin s.conf.capacity :=
  Config.lightPosition s.conf.capacity k

/-- The stage a completed LSET puts light `i` in (R97). -/
def stageOfLight (s : State) (i : Nat) : Nat := s.conf.capacity - 1 - i

/-! ## The wire -/

/-- The pin identifier of a line (R54). -/
def lineId : Line → Nat
  | .data => 1
  | .control => 2
  | .clock => 3
  | .latch => 4

/-- The pin-event byte of a trace entry; `get_control` has none (R54, R55, R106). -/
def wireByte : PinOp → Option PinByte
  | .set line level => some (pinByte (lineId line) level)
  | .getControl => none

/-- The bytes of a trace, in order. -/
def wireBytes (trace : List PinOp) : List PinByte := trace.filterMap wireByte

/-- One datagram of the emulator backend: the endpoint's path and the byte (R114). -/
structure Datagram where
  path : String
  byte : PinByte
deriving DecidableEq, Repr

/-- The datagrams the emulator backend sends for a trace: one for each `PinSet`, changed level or not, and none for a
`PinGet` (R114). -/
def datagrams (trace : List PinOp) : List Datagram :=
  (wireBytes trace).map fun byte => { path := Config.emuSocketPath, byte := byte }

end Sys2Proof.Machine
end

