-- ==== Sys2Proof/Safety.lean ====
section
/-! DEFINITION. The terms statements use: the invariants of the spec (10_state.md R12, R14, R21), the premises about the
environment (60_exceptions.md R109, R114; 10_state.md R20), what a run observes (70_reset_and_hazards.md R139). -/

namespace Sys2Proof.Machine

/-! ## Invariants -/

/-- A constructed Pattern: `width` in `1 .. W`, and no bit at or above `width` (R12). -/
abbrev Pattern.wf (pat : Pattern) : Prop :=
  1 ≤ pat.width ∧ pat.width ≤ Config.wordBits ∧ pat.bits.toNat &&& mask pat.width = pat.bits.toNat

/-- Every constructed slot satisfies the Pattern invariant (R12). -/
abbrev SlotsWf (s : State) : Prop := ∀ p : Slot, ∀ pat ∈ readSlot s p, pat.wf

/-- While configured, `1 <= light_count <= CAPACITY` (R14). -/
abbrev CfgWf (s : State) : Prop := ∀ n ∈ s.cfg, 1 ≤ n ∧ n ≤ s.conf.capacity

/-- The device has `CAPACITY` stages in each register (R21). -/
abbrev ChainWf (s : State) : Prop := s.chain.S.length = s.conf.capacity ∧ s.chain.Q.length = s.conf.capacity

/-- The levels the device last saw are the block's records (R21). -/
abbrev SeenWf (s : State) : Prop := s.chain.seen = s.pins

/-- The invariant of the machine. -/
structure Invariant (s : State) : Prop where
  /-- The construction constraint (R6). -/
  conf : s.conf.ok
  slots : SlotsWf s
  cfg : CfgWf s
  chain : ChainWf s
  seen : SeenWf s

/-! ## Premises about the environment -/

/-- The named premise "no backend failure" for the next `n` pin operations (R109). -/
abbrev NoFailure (s : State) (n : Nat) : Prop := ∀ j < n, (drawAt s j).io = .ok

/-- The pin operation at position `k` from now is the first that fails, with the error `e` (R108). -/
abbrev FirstFailure (s : State) (k : Nat) (e : BackendError) : Prop :=
  NoFailure s k ∧ (drawAt s k).io = .failed e

/-- The named premise that the readback is the reference platform's (R20). -/
abbrev Loopback (s : State) : Prop := s.conf.readback = .loopback

/-! ## What a step may change -/

/-- The part of the block's state that no Chain command writes: the slots and `cfg` (R86). -/
abbrev SameStore (s t : State) : Prop := t.slots = s.slots ∧ t.cfg = s.cfg

/-- The lines and the device are as before, and no pin operation was issued. -/
abbrev SamePins (s t : State) : Prop :=
  t.pins = s.pins ∧ t.chain = s.chain ∧ t.trace = s.trace ∧ t.draws = s.draws ∧ t.drawn = s.drawn

/-- The machine's parameters and the requests still to be served are as before. -/
abbrev SameInputs (s t : State) : Prop := t.conf = s.conf ∧ t.port = s.port

/-- Every slot but `p` is as before. -/
abbrev OtherSlots (s t : State) (p : Slot) : Prop := ∀ q : Slot, q ≠ p → readSlot t q = readSlot s q

/-- Exactly one response was given, `r`. -/
abbrev Responded (s t : State) (r : Response) : Prop := t.responses = s.responses ++ [r]

/-- `t` is `s` with the response `r` and nothing else changed: what an error of codes 1 to 7 leaves (R101). -/
abbrev OnlyResponds (s t : State) (r : Response) : Prop := t = { s with responses := s.responses ++ [r] }

/-- The pin operations `ops` were issued, in this order, and no other. -/
abbrev Issued (s t : State) (ops : List PinOp) : Prop :=
  t.trace = s.trace ++ ops ∧ t.drawn = s.drawn + ops.length ∧ t.draws = s.draws.drop ops.length

/-! ## The tables of the spec -/

/-- The 17 opcodes (R51). -/
def tableOpcodes : List Nat :=
  [0x10, 0x11, 0x12, 0x13, 0x14, 0x15, 0x20, 0x21, 0x22, 0x23, 0x24, 0x30, 0x31, 0x32, 0x33, 0x34, 0x35]

/-- The statuses each command may report (R102, column "raised by"); a pin event gives no response. -/
def tableStatuses : Instr → List Status
  | .pnew _ _ _ => [.ok, .invalidWidth]
  | .pget _ _ => [.ok, .noPattern, .rangeError]
  | .pset _ _ _ => [.ok, .noPattern, .rangeError]
  | .prol _ _ => [.ok, .noPattern]
  | .pror _ _ => [.ok, .noPattern]
  | .praw _ => [.ok, .noPattern]
  | .cen => [.ok, .backendIO]
  | .cdis => [.ok, .backendIO]
  | .cisen => [.ok, .backendIO]
  | .cshift _ _ => [.ok, .backendIO]
  | .cwrite _ => [.ok, .backendIO]
  | .lcfg _ => [.ok, .configurationError]
  | .lnewpat _ _ => [.ok, .notConfigured]
  | .lset _ => [.ok, .notConfigured, .noPattern, .widthMismatch, .backendIO]
  | .lon => [.ok, .notConfigured, .backendIO]
  | .loff => [.ok, .notConfigured, .backendIO]
  | .lison => [.ok, .notConfigured, .backendIO]
  | .pinevData _ => []
  | .pinevControl _ => []
  | .pinevClock _ => []
  | .pinevLatch _ => []

/-- The number of pin operations each command issues on success (R138); a pin event is one. -/
def tablePinOps (i : Instr) (c : Conf) : Nat :=
  match i with
  | .pnew _ _ _ => 0
  | .pget _ _ => 0
  | .pset _ _ _ => 0
  | .prol _ _ => 0
  | .pror _ _ => 0
  | .praw _ => 0
  | .cen => 1
  | .cdis => 1
  | .cisen => 1
  | .cshift _ count => 3 + 3 * count
  | .cwrite _ => 3 + 3 * c.capacity
  | .lcfg _ => 0
  | .lnewpat _ _ => 0
  | .lset _ => 3 + 3 * c.capacity
  | .lon => 1
  | .loff => 1
  | .lison => 1
  | .pinevData _ => 1
  | .pinevControl _ => 1
  | .pinevClock _ => 1
  | .pinevLatch _ => 1

/-- The Pattern commands (R51). -/
def isPatternCommand : Instr → Bool
  | .pnew _ _ _ => true
  | .pget _ _ => true
  | .pset _ _ _ => true
  | .prol _ _ => true
  | .pror _ _ => true
  | .praw _ => true
  | .cen => false
  | .cdis => false
  | .cisen => false
  | .cshift _ _ => false
  | .cwrite _ => false
  | .lcfg _ => false
  | .lnewpat _ _ => false
  | .lset _ => false
  | .lon => false
  | .loff => false
  | .lison => false
  | .pinevData _ => false
  | .pinevControl _ => false
  | .pinevClock _ => false
  | .pinevLatch _ => false

/-- The Chain commands (R51). -/
def isChainCommand : Instr → Bool
  | .pnew _ _ _ => false
  | .pget _ _ => false
  | .pset _ _ _ => false
  | .prol _ _ => false
  | .pror _ _ => false
  | .praw _ => false
  | .cen => true
  | .cdis => true
  | .cisen => true
  | .cshift _ _ => true
  | .cwrite _ => true
  | .lcfg _ => false
  | .lnewpat _ _ => false
  | .lset _ => false
  | .lon => false
  | .loff => false
  | .lison => false
  | .pinevData _ => false
  | .pinevControl _ => false
  | .pinevClock _ => false
  | .pinevLatch _ => false

/-- The pin event of a line and a level (R55). -/
def pinEventOf (line : Line) (level : Bool) : Instr :=
  match line with
  | .data => .pinevData level
  | .control => .pinevControl level
  | .clock => .pinevClock level
  | .latch => .pinevLatch level

/-- The number of lights of a Pattern that are on (R69). -/
def lightsOn (pat : Pattern) : Nat := (List.range pat.width).countP fun i => lightOn pat.bits i

/-! ## Runs -/

/-- The host presents a sequence of requests (R139). -/
def present (s : State) (reqs : List Request) : State := { s with port := s.port ++ reqs }

/-- The block has served everything and waits for the next command (R127, R139). -/
abbrev Waiting (s : State) : Prop := s.port = []

/-- A request the block has a meaning for: anything but a pin event the block cannot produce (R55, U7). -/
def requestKnown : Request → Bool
  | .command _ _ => true
  | .pinEvent byte => (decodePinEvent byte).isOk
  | .reset => true
  | .commandReset _ _ _ => true

/-- Inputs under which no step is refused: the configuration is an instance's (R6) and every request is known. -/
abbrev SafeInputs (s : State) : Prop := s.conf.ok ∧ ∀ r ∈ s.port, requestKnown r = true

/-- The environment answers each of the next operations with success and the level `sensed`. -/
def succeeding (n : Nat) (sensed : Bool) : List Draw :=
  List.replicate n { io := .ok, reacted := false, edge := false, sensed := sensed }

/-- One failing answer. -/
def failing (e : BackendError) (reacted : Bool) : Draw :=
  { io := .failed e, reacted := reacted, edge := false, sensed := false }

end Sys2Proof.Machine
end

