-- ==== Sys2Proof/Certificates/Slice0/Obligations.lean ====
section
/-! DEFINITION. The statements about the model, from the numbered rules of spec/. -/

open Sys2Proof Sys2Proof.Machine

/-! ## The configuration and reset -/

/-- R6: the constraint gives 1 to 8 chips, and a configuration that breaks it is refused. -/
def Obligations.NonInstanceIsRefused : Prop :=
  (∀ c : Conf, c.ok ↔ 1 ≤ c.chipCount ∧ c.chipCount ≤ 8) ∧
  ∀ s : State, ¬ s.conf.ok → step s = .refused .notAnInstance

/-- R13, R14, R18, R22: the state right after power-up and reset, for every instance; `State.reset` is that of one
instance (which one is the model's choice, log 1). -/
def Obligations.ResetStateAsTabled : Prop :=
  (∀ c : Conf,
    let s := State.construct c
    (∀ p, readSlot s p = none) ∧ s.cfg = none ∧
    s.pins.data = .low ∧ s.pins.clock = .low ∧ s.pins.latch = .low ∧ s.pins.control = .low ∧
    s.chain.S.length = c.capacity ∧ s.chain.Q.length = c.capacity ∧
    (∀ k < c.capacity, s.chain.S[k]? = some .x ∧ s.chain.Q[k]? = some .x) ∧
    s.chain.seen = s.pins) ∧
  ∃ c : Conf, c.ok ∧ State.reset = State.construct c

/-- The invariant holds after power-up and reset, of every instance. -/
def Obligations.ResetMeetsInvariant : Prop :=
  Invariant State.reset ∧ ∀ c : Conf, c.ok → Invariant (State.construct c)

/-- R12, R14, R21: every step keeps the construction constraint, the Pattern invariant of every slot, the bounds of the
configuration, the number of stages, and the agreement of the device's levels with the records. -/
def Obligations.StepKeepsInvariant : Prop :=
  ∀ s t : State, Invariant s → step s = .next t → Invariant t

/-- R126: the reset input. That the device then sees every line low is log 8. -/
def Obligations.ResetInputClearsBlock : Prop :=
  ∀ (s : State) (rest : List Request), s.conf.ok → s.port = .reset :: rest →
    ∃ t, step s = .next t ∧
      (∀ p, readSlot t p = none) ∧ t.cfg = none ∧
      t.pins.data = .low ∧ t.pins.clock = .low ∧ t.pins.latch = .low ∧ t.pins.control = .low ∧
      t.chain.S = s.chain.S ∧ t.chain.Q = s.chain.Q ∧ t.chain.seen = t.pins ∧
      t.trace = s.trace ∧ t.responses = s.responses ∧ t.draws = s.draws ∧ t.drawn = s.drawn ∧
      t.conf = s.conf ∧ t.port = rest

/-- R128: reset during a command. Where reset may land is log 7. -/
def Obligations.ResetAbandonsCommand : Prop :=
  ∀ (s : State) (cmd : CommandWord) (value : Word) (i : Instr) (issued : Nat) (rest : List Request),
    s.conf.ok → s.port = .commandReset cmd value issued :: rest → decodeCommand cmd value = .ok i →
    issued ≤ (effectOps (effectOf i s)).length → NoFailure s issued →
    ∃ t u w, step s = .next t ∧
      runPins ((effectOps (effectOf i s)).take issued) 0 0 s = .completed u w ∧
      (∀ p, readSlot t p = none) ∧ t.cfg = none ∧
      t.pins.data = .low ∧ t.pins.clock = .low ∧ t.pins.latch = .low ∧ t.pins.control = .low ∧
      t.chain.S = u.chain.S ∧ t.chain.Q = u.chain.Q ∧ t.chain.seen = t.pins ∧
      (∀ k < t.chain.Q.length, visible t k = [.blank]) ∧
      t.trace = s.trace ++ (effectOps (effectOf i s)).take issued ∧ t.responses = s.responses ∧
      t.conf = s.conf ∧ t.port = rest

/-! ## Steps -/

/-- A step runs the decoded instruction on the state without its request; with no request the block waits (R127); the
request placed by `withFetchWord` is the one the next step runs. -/
def Obligations.StepRunsDecodedInstruction : Prop :=
  (∀ (s : State) (r : Request) (rest : List Request) (i : Instr),
    s.conf.ok → s.port = r :: rest → (∀ cmd value n, r ≠ .commandReset cmd value n) → decodeRequest r = some i →
    step s = exec i { s with port := rest }) ∧
  (∀ s : State, s.conf.ok → s.port = [] → step s = .next s) ∧
  ∀ (s : State) (nbits w : Nat) (i : Instr),
    s.conf.ok → decodeTableWord nbits w = some i → step (s.withFetchWord nbits w) = exec i s

/-- R103: an illegal word responds with status 1 and changes nothing else, whatever its `VALUE`. -/
def Obligations.IllegalWordOnlyResponds : Prop :=
  statusCode .illegalCommand = 1 ∧
  ∀ (s : State) (cmd : CommandWord) (value : Word) (rest : List Request),
    s.conf.ok → s.port = .command cmd value :: rest →
    (cmd &&& 0x0000E000 ≠ 0 ∨ (cmd &&& 0x000000FF).toNat ∉ tableOpcodes) →
    step s = .next { s with
      port := rest
      responses := s.responses ++ [{ status := .illegalCommand, result := 0, infoIndex := 0, infoWidth := 0,
                                     ioOp := none, ioDetail := none }] }

/-- A pin-event byte with an identifier outside 1 to 4 is refused by name, and nothing else is (R55, U7). -/
def Obligations.UnknownPinEventIsRefused : Prop :=
  ∀ (s : State) (byte : PinByte) (rest : List Request), s.conf.ok → s.port = .pinEvent byte :: rest →
    ((byte &&& 0x7F).toNat ∉ [1, 2, 3, 4] → step s = .refused .unknownPinEvent) ∧
    ((byte &&& 0x7F).toNat ∈ [1, 2, 3, 4] → ∃ t, step s = .next t)

/-- With a configuration of an instance and known requests no step stops, and the inputs stay so. -/
def Obligations.SafeInputsNeverStop : Prop :=
  ∀ s : State, SafeInputs s → ∃ t, step s = .next t ∧ SafeInputs t

/-- R46: a command leaves the port and gets exactly one response. -/
def Obligations.OneResponsePerCommand : Prop :=
  ∀ (s : State) (cmd : CommandWord) (value : Word) (rest : List Request),
    s.conf.ok → s.port = .command cmd value :: rest →
    ∃ t r, step s = .next t ∧ Responded s t r ∧ t.port = rest

/-- R38: a step only extends the pin trace and the responses, and no state becomes a command (R42). -/
def Obligations.StepExtendsTraceAndResponses : Prop :=
  ∀ s t : State, step s = .next t →
    ∃ ops rs, t.trace = s.trace ++ ops ∧ t.responses = s.responses ++ rs ∧ rs.length ≤ 1 ∧
      t.drawn = s.drawn + ops.length ∧ t.draws = s.draws.drop ops.length ∧
      t.port = s.port.tail ∧ t.conf = s.conf

/-- R36: what a command does depends on no request behind it. -/
def Obligations.LaterRequestsDoNotMatter : Prop :=
  ∀ (s t : State) (r : Request) (rest other : List Request),
    step { s with port := r :: rest } = .next t → step { s with port := r :: other } = .next { t with port := other }

/-! ## Encoding -/

/-- R51: each opcode, in R47's format with `rsv = 0`, is its command, whatever the fields it does not use hold. -/
def Obligations.OpcodeMapDecodes : Prop :=
  ∀ (p : Slot) (f : Bool) (a : Nat) (v : Word), a < 65536 →
    let word := fun op : Nat => BitVec.ofNat 32 ((a <<< 16) ||| (f.toNat <<< 12) ||| (p.val <<< 8) ||| op)
    decodeCommand (word 0x10) v = .ok (.pnew p a f) ∧
    decodeCommand (word 0x11) v = .ok (.pget p a) ∧
    decodeCommand (word 0x12) v = .ok (.pset p a f) ∧
    decodeCommand (word 0x13) v = .ok (.prol p a) ∧
    decodeCommand (word 0x14) v = .ok (.pror p a) ∧
    decodeCommand (word 0x15) v = .ok (.praw p) ∧
    decodeCommand (word 0x20) v = .ok .cen ∧
    decodeCommand (word 0x21) v = .ok .cdis ∧
    decodeCommand (word 0x22) v = .ok .cisen ∧
    decodeCommand (word 0x23) v = .ok (.cshift v a) ∧
    decodeCommand (word 0x24) v = .ok (.cwrite v) ∧
    decodeCommand (word 0x30) v = .ok (.lcfg a) ∧
    decodeCommand (word 0x31) v = .ok (.lnewpat p f) ∧
    decodeCommand (word 0x32) v = .ok (.lset p) ∧
    decodeCommand (word 0x33) v = .ok .lon ∧
    decodeCommand (word 0x34) v = .ok .loff ∧
    decodeCommand (word 0x35) v = .ok .lison

/-- R52, R53: a word is a command exactly when its reserved bits are 0 and its opcode is one of the 17. -/
def Obligations.ReservedWordsAreIllegal : Prop :=
  ∀ (cmd : CommandWord) (v : Word),
    (∃ i, decodeCommand cmd v = .ok i) ↔ cmd &&& 0x0000E000 = 0 ∧ (cmd &&& 0x000000FF).toNat ∈ tableOpcodes

/-- Decoding what an instruction encodes to gives it back, with every operand at every value the encoding admits. -/
def Obligations.DecodeOfEncode : Prop :=
  ∀ i : Instr, i.wf = true → decodeRequest (encode i) = some i

/-- Encoding what a word decodes to gives the word back in the bits the command uses, and the instruction is
well-formed. -/
def Obligations.EncodeOfDecode : Prop :=
  ∀ (cmd : CommandWord) (v : Word) (i : Instr), decodeCommand cmd v = .ok i →
    i.wf = true ∧ encode i = .command (cmd &&& usedBits i) (if usesValue i then v else 0)

/-- R49: a field the command does not use has no effect. -/
def Obligations.UnusedFieldsAreIgnored : Prop :=
  ∀ (cmd cmd' : CommandWord) (v v' : Word) (i : Instr), decodeCommand cmd v = .ok i →
    cmd' &&& usedBits i = cmd &&& usedBits i → (usesValue i = true → v' = v) → decodeCommand cmd' v' = .ok i

/-- Words written out from R47's fields, one of each family and three illegal ones (95_test_vectors.md V-D1, V-D3, V-D7 to
V-D9). A sanity statement. -/
def Obligations.SampleWordsDecode : Prop :=
  decodeCommand 0x00080010 0 = .ok (.pnew 0 8 false) ∧
  decodeCommand 0x003F1212 0 = .ok (.pset 2 63 true) ∧
  decodeCommand 0xFFFF1F20 0 = .ok .cen ∧
  decodeCommand 0x00030023 5 = .ok (.cshift 5 3) ∧
  decodeCommand 0x00001231 0 = .ok (.lnewpat 2 true) ∧
  decodeCommand 0x00002010 0 = .error .reservedBits ∧
  decodeCommand 0x0000E020 0 = .error .reservedBits ∧
  decodeCommand 0x00000016 0 = .error .reservedOpcode ∧
  decodePinEvent 0x83 = .ok (.pinevClock true) ∧
  decodePinEvent 0x04 = .ok (.pinevLatch false)

/-- R54, R55: the byte of a line and a level is sent for each `PinSet`, its identifier is the line's, and presented to the
machine it is that pin event. A `PinGet` has no byte. -/
def Obligations.PinEventBytes : Prop :=
  ∀ (line : Line) (level : Bool) (s : State) (rest : List Request) (byte : PinByte), s.conf.ok →
    byte = BitVec.ofNat 8 ((if level then 128 else 0) +
      match line with | .data => 1 | .control => 2 | .clock => 3 | .latch => 4) →
    wireByte (.set line level) = some byte ∧ wireByte .getControl = none ∧
    (s.port = .pinEvent byte :: rest → step s = exec (pinEventOf line level) { s with port := rest })

/-- R57, R58: the instruction of every form of line, the omitted operands at their defaults and the pseudo-instructions as
PSET, for every operand that fits its field; a line with an operand that does not fit assembles to nothing, which is the
model's choice (log 15); and what a line assembles to decodes to itself. -/
def Obligations.AssembledLinesDecode : Prop :=
  (∀ (q : Slot) (n : Nat) (b : Bool) (v : Word), n < 65536 →
    assemble (.pnew q.val n b) = some (.pnew q n b) ∧
    assemble (.pget q.val n) = some (.pget q n) ∧
    assemble (.pset q.val n b) = some (.pset q n b) ∧
    assemble (.prol q.val (some n)) = some (.prol q n) ∧
    assemble (.prol q.val none) = some (.prol q 1) ∧
    assemble (.pror q.val (some n)) = some (.pror q n) ∧
    assemble (.pror q.val none) = some (.pror q 1) ∧
    assemble (.praw q.val) = some (.praw q) ∧
    assemble .cen = some .cen ∧ assemble .cdis = some .cdis ∧ assemble .cisen = some .cisen ∧
    assemble (.cshift v.toNat n) = some (.cshift v n) ∧
    assemble (.cwrite v.toNat) = some (.cwrite v) ∧
    assemble (.lcfg n) = some (.lcfg n) ∧
    assemble (.lnewpat q.val (some b)) = some (.lnewpat q b) ∧
    assemble (.lnewpat q.val none) = some (.lnewpat q false) ∧
    assemble (.lset q.val) = some (.lset q) ∧
    assemble .lon = some .lon ∧ assemble .loff = some .loff ∧ assemble .lison = some .lison ∧
    assemble (.pon q.val n) = some (.pset q n true) ∧
    assemble (.poff q.val n) = some (.pset q n false)) ∧
  (∀ (p n v : Nat) (b : Bool) (count : Option Nat) (state : Option Bool),
    (16 ≤ p ∨ 65536 ≤ n →
      assemble (.pnew p n b) = none ∧ assemble (.pget p n) = none ∧ assemble (.pset p n b) = none ∧
      assemble (.prol p (some n)) = none ∧ assemble (.pror p (some n)) = none ∧
      assemble (.pon p n) = none ∧ assemble (.poff p n) = none) ∧
    (16 ≤ p →
      assemble (.prol p count) = none ∧ assemble (.pror p count) = none ∧ assemble (.praw p) = none ∧
      assemble (.lnewpat p state) = none ∧ assemble (.lset p) = none) ∧
    (2 ^ 64 ≤ v ∨ 65536 ≤ n → assemble (.cshift v n) = none) ∧
    (2 ^ 64 ≤ v → assemble (.cwrite v) = none) ∧
    (65536 ≤ n → assemble (.lcfg n) = none)) ∧
  ∀ (line : Asm) (i : Instr), assemble line = some i → i.wf = true ∧ decodeRequest (encode i) = some i

/-- R57, R58: one line of text of each form, with the word it assembles to (section 3 of 95_test_vectors.md and the
examples of the commands' rules). A sanity statement. -/
def Obligations.AssemblyTextSamples : Prop :=
  assembleLine "PNEW s1, 5, on".toList = some (.command 0x00051110 0) ∧
  assembleLine "PGET s0, 7".toList = some (.command 0x00070011 0) ∧
  assembleLine "PSET s0, 7, 1".toList = some (.command 0x00071012 0) ∧
  assembleLine "PROL s0, 2".toList = some (.command 0x00020013 0) ∧
  assembleLine "PROL s0".toList = some (.command 0x00010013 0) ∧
  assembleLine "PROR s3, 3".toList = some (.command 0x00030314 0) ∧
  assembleLine "PRAW s3".toList = some (.command 0x00000315 0) ∧
  assembleLine "CEN".toList = some (.command 0x00000020 0) ∧
  assembleLine "CDIS".toList = some (.command 0x00000021 0) ∧
  assembleLine "CISEN".toList = some (.command 0x00000022 0) ∧
  assembleLine "CSHIFT 0b101, 3".toList = some (.command 0x00030023 5) ∧
  assembleLine "CWRITE 0x5A".toList = some (.command 0x00000024 0x5A) ∧
  assembleLine "LCFG 12".toList = some (.command 0x000C0030 0) ∧
  assembleLine "LNEWPAT s3, on".toList = some (.command 0x00001331 0) ∧
  assembleLine "LNEWPAT s0".toList = some (.command 0x00000031 0) ∧
  assembleLine "LSET s3".toList = some (.command 0x00000332 0) ∧
  assembleLine "LON".toList = some (.command 0x00000033 0) ∧
  assembleLine "LOFF".toList = some (.command 0x00000034 0) ∧
  assembleLine "LISON".toList = some (.command 0x00000035 0) ∧
  assembleLine "PON s0, 7".toList = some (.command 0x00071012 0) ∧
  assembleLine "POFF s3, 11".toList = some (.command 0x000B0312 0)

/-! ## The Pattern commands -/

/-- R62. -/
def Obligations.PnewConstructsPattern : Prop :=
  ∀ (s : State) (p : Slot) (w : Nat) (on : Bool),
    (1 ≤ w → w ≤ 64 → ∃ t pat, exec (.pnew p w on) s = .next t ∧
      readSlot t p = some pat ∧ pat.width = w ∧ (∀ i, lightOn pat.bits i = (on && decide (i < w))) ∧
      Responded s t (okResponse 0) ∧ OtherSlots s t p ∧ t.cfg = s.cfg ∧ SamePins s t ∧ SameInputs s t) ∧
    (w = 0 ∨ w > 64 → ∃ t, exec (.pnew p w on) s = .next t ∧ OnlyResponds s t (errorResponse .invalidWidth))

/-- R63. -/
def Obligations.PgetReadsOneLight : Prop :=
  ∀ (s : State) (p : Slot) (index : Nat),
    (readSlot s p = none →
      ∃ t, exec (.pget p index) s = .next t ∧ OnlyResponds s t (errorResponse .noPattern)) ∧
    ∀ pat, readSlot s p = some pat →
      (index < pat.width → ∃ t, exec (.pget p index) s = .next t ∧
        OnlyResponds s t (okResponse (if lightOn pat.bits index then 1 else 0))) ∧
      (pat.width ≤ index → ∃ t, exec (.pget p index) s = .next t ∧
        OnlyResponds s t { status := .rangeError, result := 0, infoIndex := BitVec.ofNat 16 index,
                           infoWidth := BitVec.ofNat 16 pat.width, ioOp := none, ioDetail := none })

/-- R64. The Pattern invariant (R12) is a premise: it rules out states no run reaches (StepKeepsInvariant). -/
def Obligations.PsetWritesOneLight : Prop :=
  ∀ (s : State) (p : Slot) (index : Nat) (value : Bool),
    (readSlot s p = none →
      ∃ t, exec (.pset p index value) s = .next t ∧ OnlyResponds s t (errorResponse .noPattern)) ∧
    ∀ pat, readSlot s p = some pat →
      (pat.wf → index < pat.width → ∃ t pat', exec (.pset p index value) s = .next t ∧
        readSlot t p = some pat' ∧ pat'.wf ∧ pat'.width = pat.width ∧
        (∀ i, lightOn pat'.bits i = if i = index then value else lightOn pat.bits i) ∧
        Responded s t (okResponse 0) ∧ OtherSlots s t p ∧ t.cfg = s.cfg ∧ SamePins s t ∧ SameInputs s t) ∧
      (pat.width ≤ index → ∃ t, exec (.pset p index value) s = .next t ∧
        OnlyResponds s t { status := .rangeError, result := 0, infoIndex := BitVec.ofNat 16 index,
                           infoWidth := BitVec.ofNat 16 pat.width, ioOp := none, ioDetail := none })

/-- R65: every count is legal, and light `i` moves to light `(i + a) mod w`. -/
def Obligations.ProlRotatesLeft : Prop :=
  ∀ (s : State) (p : Slot) (a : Nat),
    (readSlot s p = none → ∃ t, exec (.prol p a) s = .next t ∧ OnlyResponds s t (errorResponse .noPattern)) ∧
    ∀ pat, readSlot s p = some pat → pat.wf →
      ∃ t pat', exec (.prol p a) s = .next t ∧ readSlot t p = some pat' ∧ pat'.wf ∧ pat'.width = pat.width ∧
        (∀ i < pat.width, lightOn pat'.bits ((i + a) % pat.width) = lightOn pat.bits i) ∧
        Responded s t (okResponse 0) ∧ OtherSlots s t p ∧ t.cfg = s.cfg ∧ SamePins s t ∧ SameInputs s t

/-- R66: light `(i + a) mod w` moves to light `i`. -/
def Obligations.ProrRotatesRight : Prop :=
  ∀ (s : State) (p : Slot) (a : Nat),
    (readSlot s p = none → ∃ t, exec (.pror p a) s = .next t ∧ OnlyResponds s t (errorResponse .noPattern)) ∧
    ∀ pat, readSlot s p = some pat → pat.wf →
      ∃ t pat', exec (.pror p a) s = .next t ∧ readSlot t p = some pat' ∧ pat'.wf ∧ pat'.width = pat.width ∧
        (∀ i < pat.width, lightOn pat'.bits i = lightOn pat.bits ((i + a) % pat.width)) ∧
        Responded s t (okResponse 0) ∧ OtherSlots s t p ∧ t.cfg = s.cfg ∧ SamePins s t ∧ SameInputs s t

/-- R67: bit `i` of the result is light `i`, and the bits at and above the width are 0. -/
def Obligations.PrawReadsAllLights : Prop :=
  ∀ (s : State) (p : Slot),
    (readSlot s p = none → ∃ t, exec (.praw p) s = .next t ∧ OnlyResponds s t (errorResponse .noPattern)) ∧
    ∀ pat, readSlot s p = some pat → pat.wf →
      ∃ t result, exec (.praw p) s = .next t ∧ OnlyResponds s t (okResponse result) ∧
        (∀ i < pat.width, result.getLsbD i = lightOn pat.bits i) ∧ ∀ i, pat.width ≤ i → result.getLsbD i = false

/-- R61: every Pattern command but PNEW ends with NoPattern on an empty slot and changes nothing; no Pattern command
issues a pin operation, so none ends with BackendIO. -/
def Obligations.EmptySlotGivesNoPattern : Prop :=
  (∀ (s : State) (p : Slot) (a : Nat) (f : Bool), readSlot s p = none →
    ∀ i ∈ [Instr.pget p a, .pset p a f, .prol p a, .pror p a, .praw p],
      ∃ t, exec i s = .next t ∧ OnlyResponds s t (errorResponse .noPattern)) ∧
  ∀ (i : Instr) (s t : State), isPatternCommand i = true → exec i s = .next t →
    SamePins s t ∧ t.cfg = s.cfg ∧ SameInputs s t ∧ ∃ r, Responded s t r ∧ r.status ≠ .backendIO

/-- R69, every law. -/
def Obligations.RotationLaws : Prop :=
  ∀ (s : State) (p : Slot) (pat : Pattern), readSlot s p = some pat → pat.wf →
    (∀ a t u, exec (.prol p a) s = .next t → exec (.pror p a) t = .next u → readSlot u p = some pat) ∧
    (∀ a t u, exec (.pror p a) s = .next t → exec (.prol p a) t = .next u → readSlot u p = some pat) ∧
    (∀ t, exec (.prol p pat.width) s = .next t → readSlot t p = some pat) ∧
    (∀ t, exec (.pror p pat.width) s = .next t → readSlot t p = some pat) ∧
    (∀ a, exec (.prol p a) s = exec (.prol p (a % pat.width)) s) ∧
    (∀ c, 0 < c → c < pat.width → exec (.pror p c) s = exec (.prol p (pat.width - c)) s) ∧
    (∀ i f t u, i < pat.width → exec (.pset p i f) s = .next t → exec (.pget p i) t = .next u →
      Responded t u (okResponse (if f then 1 else 0))) ∧
    (∀ a t pat', exec (.prol p a) s = .next t → readSlot t p = some pat' → lightsOn pat' = lightsOn pat) ∧
    ∀ a t pat', exec (.pror p a) s = .next t → readSlot t p = some pat' → lightsOn pat' = lightsOn pat

/-- R70: the rendering has `width` characters, the one at position `k` from the left that of light `width - 1 - k`. An
empty slot has none. -/
def Obligations.RenderIsMostSignificantFirst : Prop :=
  ∀ (s : State) (p : Slot),
    (readSlot s p = none → render s p = none) ∧
    ∀ pat, readSlot s p = some pat →
      ∃ chars : List Char, render s p = some (String.ofList chars) ∧ chars.length = pat.width ∧
        ∀ k < pat.width, chars[k]? = some (if pat.bits.getLsbD (pat.width - 1 - k) then '1' else '0')

/-- R71, R12: between a construction in a slot and the next, the Pattern stays and its width does not change. -/
def Obligations.SlotWidthIsFixed : Prop :=
  ∀ (i : Instr) (s t : State) (p : Slot) (pat : Pattern), exec i s = .next t → readSlot s p = some pat →
    (∀ w on, i ≠ .pnew p w on) → (∀ on, i ≠ .lnewpat p on) →
    ∃ pat', readSlot t p = some pat' ∧ pat'.width = pat.width

/-! ## The Chain commands -/

/-- R76, R77: one `PinSet` of the control line, issued whatever its level; the lights are then shown or blanked, and the
device's registers stay. -/
def Obligations.EnableAndDisable : Prop :=
  ∀ s : State,
    (NoFailure s 1 →
      (∃ t, exec .cen s = .next t ∧ Issued s t [.set .control true] ∧ Responded s t (okResponse 0) ∧
        t.pins = { s.pins with control := .high } ∧ t.chain.seen = { s.chain.seen with control := .high } ∧
        t.chain.S = s.chain.S ∧ t.chain.Q = s.chain.Q ∧ SameStore s t ∧ SameInputs s t ∧
        (∀ k q, s.chain.Q[k]? = some q → visible t k = [.stored q])) ∧
      (∃ t, exec .cdis s = .next t ∧ Issued s t [.set .control false] ∧ Responded s t (okResponse 0) ∧
        t.pins = { s.pins with control := .low } ∧ t.chain.seen = { s.chain.seen with control := .low } ∧
        t.chain.S = s.chain.S ∧ t.chain.Q = s.chain.Q ∧ SameStore s t ∧ SameInputs s t ∧
        (∀ k q, s.chain.Q[k]? = some q → visible t k = [.blank]))) ∧
    ∀ e, FirstFailure s 0 e →
      (∃ t, exec .cen s = .next t ∧ Issued s t [.set .control true] ∧ Responded s t (backendResponse 0 e) ∧
        t.pins = { s.pins with control := .x } ∧ SameStore s t ∧ SameInputs s t) ∧
      (∃ t, exec .cdis s = .next t ∧ Issued s t [.set .control false] ∧ Responded s t (backendResponse 0 e) ∧
        t.pins = { s.pins with control := .x } ∧ SameStore s t ∧ SameInputs s t)

/-- R78, R107: one `PinGet`; the result is the level the readback returns, which under loopback is the record (R20). Nothing
else changes. -/
def Obligations.CisenReadsBack : Prop :=
  ∀ s : State,
    (NoFailure s 1 →
      ∃ t level, exec .cisen s = .next t ∧ Issued s t [.getControl] ∧
        Responded s t (okResponse (if level then 1 else 0)) ∧
        (Loopback s → s.pins.control = .low → level = false) ∧
        (Loopback s → s.pins.control = .high → level = true) ∧
        t.pins = s.pins ∧ t.chain = s.chain ∧ SameStore s t ∧ SameInputs s t) ∧
    ∀ e, FirstFailure s 0 e →
      ∃ t, exec .cisen s = .next t ∧ Issued s t [.getControl] ∧ Responded s t (backendResponse 0 e) ∧
        t.pins = s.pins ∧ t.chain = s.chain ∧ SameStore s t ∧ SameInputs s t

/-- R20: where the record is unknown, and on a platform without loopback, the level CISEN reads is the environment's own
answer to that operation (the form of that answer is log 22). -/
def Obligations.ReadbackIsAnyLevel : Prop :=
  ∀ s : State, NoFailure s 1 → (¬ Loopback s ∨ s.pins.control = .x) →
    ∃ t, exec .cisen s = .next t ∧ Responded s t (okResponse (if (drawAt s 0).sensed then 1 else 0))

/-- R79: the pin operations of CSHIFT, in order; at the first failure the command ends with that operation's number and
issues no later one. -/
def Obligations.CshiftIssuesTheProtocol : Prop :=
  ∀ (s : State) (value : Word) (a : Nat),
    let ops := [PinOp.set .latch false] ++
      (List.range a).flatMap (fun i => [.set .clock false, .set .data (value.getLsbD i), .set .clock true]) ++
      [.set .latch true, .set .latch false]
    ops.length = 3 + 3 * a ∧
    (NoFailure s (3 + 3 * a) →
      ∃ t, exec (.cshift value a) s = .next t ∧ Issued s t ops ∧ Responded s t (okResponse 0) ∧
        SameStore s t ∧ SameInputs s t) ∧
    ∀ k e, k < 3 + 3 * a → FirstFailure s k e →
      ∃ t, exec (.cshift value a) s = .next t ∧ Issued s t (ops.take (k + 1)) ∧
        Responded s t (backendResponse k e) ∧ SameStore s t ∧ SameInputs s t

/-- R80: CWRITE is CSHIFT with the count `CAPACITY`; it completes after `3 + 3 * CAPACITY` operations, and the bits of
`VALUE` at and above `CAPACITY` are never sent. -/
def Obligations.CwriteIsFullShift : Prop :=
  ∀ (s : State) (value : Word),
    exec (.cwrite value) s = exec (.cshift value s.conf.capacity) s ∧
    (NoFailure s (3 + 3 * s.conf.capacity) →
      ∃ t, exec (.cwrite value) s = .next t ∧ Responded s t (okResponse 0) ∧
        t.trace.length = s.trace.length + (3 + 3 * s.conf.capacity) ∧ SameStore s t ∧ SameInputs s t) ∧
    ∀ other : Word, (∀ j < s.conf.capacity, other.getLsbD j = value.getLsbD j) →
      exec (.cwrite other) s = exec (.cwrite value) s

/-- R19: the levels a completed CSHIFT, CWRITE or LSET leaves on the lines. -/
def Obligations.LinesAfterShift : Prop :=
  ∀ s : State,
    (∀ (value : Word) (a : Nat), NoFailure s (3 + 3 * a) →
      ∃ t, exec (.cshift value a) s = .next t ∧ t.pins.latch = .low ∧ t.pins.control = s.pins.control ∧
        (1 ≤ a → t.pins.clock = .high ∧ t.pins.data = if value.getLsbD (a - 1) then .high else .low) ∧
        (a = 0 → t.pins.clock = s.pins.clock ∧ t.pins.data = s.pins.data)) ∧
    (∀ value : Word, s.conf.ok → NoFailure s (3 + 3 * s.conf.capacity) →
      ∃ t, exec (.cwrite value) s = .next t ∧ t.pins.latch = .low ∧ t.pins.control = s.pins.control ∧
        t.pins.clock = .high ∧ t.pins.data = if value.getLsbD (s.conf.capacity - 1) then .high else .low) ∧
    ∀ (p : Slot) (pat : Pattern), s.conf.ok → s.cfg = some pat.width → readSlot s p = some pat →
      NoFailure s (3 + 3 * s.conf.capacity) →
      ∃ t, exec (.lset p) s = .next t ∧ t.pins.latch = .low ∧ t.pins.control = s.pins.control ∧
        t.pins.clock = .high ∧ t.pins.data = if pat.bits.getLsbD (s.conf.capacity - 1) then .high else .low

/-- R83: where the bits of a completed CSHIFT land, whatever the chain held and whatever level the lines were at before;
after CWRITE nothing of the previous contents survives. -/
def Obligations.ShiftedBitsLand : Prop :=
  ∀ s : State, ChainWf s →
    (∀ (value : Word) (a : Nat), NoFailure s (3 + 3 * a) →
      ∃ t, exec (.cshift value a) s = .next t ∧ ChainWf t ∧ t.chain.Q = t.chain.S ∧
        (∀ k, k < a → k < s.conf.capacity →
          t.chain.S[k]? = some (if value.getLsbD (a - 1 - k) then .high else .low)) ∧
        ∀ k, a ≤ k → k < s.conf.capacity → t.chain.S[k]? = s.chain.S[k - a]?) ∧
    ∀ value : Word, NoFailure s (3 + 3 * s.conf.capacity) →
      ∃ t, exec (.cwrite value) s = .next t ∧ t.chain.Q = t.chain.S ∧
        ∀ k < s.conf.capacity,
          t.chain.S[k]? = some (if value.getLsbD (s.conf.capacity - 1 - k) then .high else .low)

/-- R86: a Chain command neither writes nor reads the slots and the configuration, however it ends. -/
def Obligations.ChainCommandsIgnoreTheStore : Prop :=
  ∀ (i : Instr) (s t : State), isChainCommand i = true → exec i s = .next t →
    SameStore s t ∧ SameInputs s t ∧
    ∀ (slots : Vector (Option Pattern) 16) (cfg : Option Nat),
      exec i { s with slots := slots, cfg := cfg } = .next { t with slots := slots, cfg := cfg }

/-- R85: CEN and CDIS drive only the control line, CSHIFT and CWRITE never drive it, and the lights change only at the
latch pulse: a CSHIFT that fails before it leaves `Q` alone. -/
def Obligations.EnableIsIndependentOfShifting : Prop :=
  (∀ (i : Instr) (s t : State), i = .cen ∨ i = .cdis → exec i s = .next t →
    t.pins.data = s.pins.data ∧ t.pins.clock = s.pins.clock ∧ t.pins.latch = s.pins.latch ∧
    t.chain.S = s.chain.S ∧ t.chain.Q = s.chain.Q) ∧
  (∀ (s t : State) (value : Word) (a : Nat), exec (.cshift value a) s = .next t → t.pins.control = s.pins.control) ∧
  (∀ (s t : State) (value : Word), exec (.cwrite value) s = .next t → t.pins.control = s.pins.control) ∧
  ∀ (s t : State) (value : Word) (a k : Nat) (e : BackendError), k < 1 + 3 * a → FirstFailure s k e →
    exec (.cshift value a) s = .next t → t.chain.Q = s.chain.Q

/-- R40: only a latch-high operation changes `Q`, and at a latch edge `Q` takes all of `S` at once. -/
def Obligations.LightsChangeOnlyAtLatch : Prop :=
  (∀ (ops : List PinOp) (k : Nat) (r : Word) (s : State), PinOp.set .latch true ∉ ops →
    (∀ t v, runPins ops k r s = .completed t v → t.chain.Q = s.chain.Q) ∧
    ∀ t j e, runPins ops k r s = .failed t j e → t.chain.Q = s.chain.Q) ∧
  ∀ s : State, NoFailure s 1 → s.chain.seen.latch = .low → (pinOp (.set .latch true) s).1.chain.Q = s.chain.S

/-- R134, R130: a completed CWRITE leaves a chain that depends on `VALUE` alone, every stage known, whatever partial frame
stood there. -/
def Obligations.FullWriteClearsThePartialFrame : Prop :=
  ∀ (s s' : State) (value : Word), s'.conf = s.conf → ChainWf s → ChainWf s' →
    NoFailure s (3 + 3 * s.conf.capacity) → NoFailure s' (3 + 3 * s.conf.capacity) →
    ∃ t t', exec (.cwrite value) s = .next t ∧ exec (.cwrite value) s' = .next t' ∧
      t'.chain.S = t.chain.S ∧ t'.chain.Q = t.chain.Q ∧ ∀ k < s.conf.capacity, t.chain.Q[k]? ≠ some .x

/-! ## The LightArray commands -/

/-- R90: on an unconfigured array every LightArray command but LCFG ends with NotConfigured and changes nothing, also on an
empty slot (R104). -/
def Obligations.UnconfiguredGivesNotConfigured : Prop :=
  ∀ (s : State) (p : Slot) (on : Bool), s.cfg = none →
    ∀ i ∈ [Instr.lnewpat p on, .lset p, .lon, .loff, .lison],
      ∃ t, exec i s = .next t ∧ OnlyResponds s t (errorResponse .notConfigured)

/-- R91. -/
def Obligations.LcfgConfigures : Prop :=
  ∀ (s : State) (n : Nat),
    (1 ≤ n → n ≤ s.conf.capacity → ∃ t, exec (.lcfg n) s = .next t ∧ t.cfg = some n ∧ t.slots = s.slots ∧
      Responded s t (okResponse 0) ∧ SamePins s t ∧ SameInputs s t) ∧
    (n = 0 ∨ n > s.conf.capacity →
      ∃ t, exec (.lcfg n) s = .next t ∧ OnlyResponds s t (errorResponse .configurationError))

/-- R92. The bounds of the configuration (R14, R6) are premises: they rule out states no run reaches. -/
def Obligations.LnewpatConstructsPattern : Prop :=
  ∀ (s : State) (p : Slot) (on : Bool),
    (s.cfg = none → ∃ t, exec (.lnewpat p on) s = .next t ∧ OnlyResponds s t (errorResponse .notConfigured)) ∧
    ∀ n, s.cfg = some n → s.conf.ok → CfgWf s →
      ∃ t pat, exec (.lnewpat p on) s = .next t ∧
        readSlot t p = some pat ∧ pat.wf ∧ pat.width = n ∧ (∀ i, lightOn pat.bits i = (on && decide (i < n))) ∧
        Responded s t (okResponse 0) ∧ OtherSlots s t p ∧ t.cfg = s.cfg ∧ SamePins s t ∧ SameInputs s t

/-- R93: LSET's checks in order, then CWRITE of the slot's bits. -/
def Obligations.LsetChecksThenWrites : Prop :=
  ∀ (s : State) (p : Slot),
    (s.cfg = none → ∃ t, exec (.lset p) s = .next t ∧ OnlyResponds s t (errorResponse .notConfigured)) ∧
    ∀ n, s.cfg = some n →
      (readSlot s p = none → ∃ t, exec (.lset p) s = .next t ∧ OnlyResponds s t (errorResponse .noPattern)) ∧
      ∀ pat, readSlot s p = some pat →
        (pat.width ≠ n → ∃ t, exec (.lset p) s = .next t ∧ OnlyResponds s t (errorResponse .widthMismatch)) ∧
        (pat.width = n →
          exec (.lset p) s = exec (.cwrite pat.bits) s ∧
          (NoFailure s (3 + 3 * s.conf.capacity) →
            ∃ t, exec (.lset p) s = .next t ∧ Responded s t (okResponse 0) ∧ SameStore s t ∧ SameInputs s t ∧
              t.trace.length = s.trace.length + (3 + 3 * s.conf.capacity)) ∧
          ∀ k e, k < 3 + 3 * s.conf.capacity → FirstFailure s k e →
            ∃ t, exec (.lset p) s = .next t ∧ Responded s t (backendResponse k e) ∧ SameStore s t ∧ SameInputs s t)

/-- R97: after a completed LSET of a Pattern of `n` lights, light `i` is in stage `CAPACITY-1-i` and stages
`0 .. CAPACITY-1-n` hold 0, in `S` and in what an enabled display shows. -/
def Obligations.LsetPutsLightsInStages : Prop :=
  ∀ (s : State) (p : Slot) (pat : Pattern), Invariant s → s.cfg = some pat.width → readSlot s p = some pat →
    NoFailure s (3 + 3 * s.conf.capacity) →
    ∃ t, exec (.lset p) s = .next t ∧ Responded s t (okResponse 0) ∧ SameStore s t ∧
      t.pins.control = s.pins.control ∧ t.chain.Q = t.chain.S ∧
      (∀ i < pat.width,
        t.chain.S[s.conf.capacity - 1 - i]? = some (if lightOn pat.bits i then .high else .low)) ∧
      (∀ k < s.conf.capacity - pat.width, t.chain.S[k]? = some .low) ∧
      (s.pins.control = .high → ∀ i < pat.width,
        visible t (stageOfLight s i) = [.stored (if lightOn pat.bits i then .high else .low)]) ∧
      (s.pins.control = .low → ∀ k < s.conf.capacity, visible t k = [.blank])

/-- R94, R95, R96: unconfigured, LON, LOFF and LISON end with NotConfigured; configured, LON is CEN, LOFF is CDIS and LISON
is CISEN, and each completes. -/
def Obligations.DisplayCommandsDelegate : Prop :=
  ∀ s : State,
    (s.cfg = none → ∀ i ∈ [Instr.lon, .loff, .lison],
      ∃ t, exec i s = .next t ∧ OnlyResponds s t (errorResponse .notConfigured)) ∧
    ∀ n, s.cfg = some n →
      exec .lon s = exec .cen s ∧ exec .loff s = exec .cdis s ∧ exec .lison s = exec .cisen s ∧
      (NoFailure s 1 →
        (∃ t, exec .lon s = .next t ∧ Responded s t (okResponse 0) ∧ Issued s t [.set .control true] ∧
          t.pins = { s.pins with control := .high } ∧ SameStore s t ∧ SameInputs s t) ∧
        (∃ t, exec .loff s = .next t ∧ Responded s t (okResponse 0) ∧ Issued s t [.set .control false] ∧
          t.pins = { s.pins with control := .low } ∧ SameStore s t ∧ SameInputs s t) ∧
        ∃ t level, exec .lison s = .next t ∧ Responded s t (okResponse (if level then 1 else 0)) ∧
          Issued s t [.getControl] ∧ (Loopback s → s.pins.control = .high → level = true) ∧
          (Loopback s → s.pins.control = .low → level = false) ∧
          t.pins = s.pins ∧ t.chain = s.chain ∧ SameStore s t ∧ SameInputs s t)

/-! ## Errors -/

/-- R105, R101: an error of codes 1 to 7 changes nothing and issues no pin operation. -/
def Obligations.ErrorsChangeNothing : Prop :=
  ∀ (i : Instr) (s t : State) (r : Response), exec i s = .next t → Responded s t r →
    r.status ≠ .ok → r.status ≠ .backendIO → OnlyResponds s t r

/-- R102, R50: the codes are those of the table, each command reports only the statuses of the table, and the fields of the
response are set only as the table says. -/
def Obligations.StatusesAsTabled : Prop :=
  ([.ok, .illegalCommand, .notConfigured, .noPattern, .invalidWidth, .rangeError, .configurationError, .widthMismatch,
      .backendIO] : List Status).map (fun status => (statusCode status).toNat) = List.range 9 ∧
  ∀ (i : Instr) (s t : State) (r : Response), exec i s = .next t → Responded s t r →
    r.status ∈ tableStatuses i ∧
    (r.status ≠ .ok → r.result = 0) ∧
    (r.status ≠ .rangeError → r.infoIndex = 0 ∧ r.infoWidth = 0) ∧
    (r.status ≠ .backendIO → r.ioOp = none ∧ r.ioDetail = none) ∧
    (r.status = .backendIO → ∃ k e, r.ioOp = some k ∧ r.ioDetail = some e ∧ FirstFailure s k e)

/-- R108: at the first failure the effects of the operations before it stay; a failed `PinSet` makes its line unknown, to
the block and to the device, which reacted as to a success or not at all; a failed `PinGet` changes nothing. -/
def Obligations.FailureKeepsEarlierEffects : Prop :=
  ∀ (ops : List PinOp) (s : State) (k : Nat) (e : BackendError), k < ops.length → FirstFailure s k e →
    ∃ u w t, runPins (ops.take k) 0 0 s = .completed u w ∧ runPins ops 0 0 s = .failed t k e ∧
      t.trace = s.trace ++ ops.take (k + 1) ∧ SameStore u t ∧
      (∀ line level, ops[k]? = some (.set line level) →
        t.pins = setLine u.pins line .x ∧ t.chain.seen = setLine u.chain.seen line .x ∧
        ((t.chain.S = u.chain.S ∧ t.chain.Q = u.chain.Q) ∨
          ∃ edge, t.chain.S = (chainReacts u.conf.capacity line level edge u.chain).S ∧
            t.chain.Q = (chainReacts u.conf.capacity line level edge u.chain).Q)) ∧
      (ops[k]? = some .getControl → t.pins = u.pins ∧ t.chain = u.chain)

/-- R138: the number of pin operations of a command that succeeds. -/
def Obligations.PinOperationCounts : Prop :=
  ∀ (i : Instr) (s t : State) (r : Response), exec i s = .next t → Responded s t r → r.status = .ok →
    t.trace.length = s.trace.length + tablePinOps i s.conf

/-! ## Who writes what -/

/-- R14, R12, R85, R111, R112: the configuration is written only by LCFG; a slot only by the commands that name it; the
control line only by CEN, CDIS, LON, LOFF and its pin event; `S` and `Q` only by the shifting commands and the pin events
of the clock and the latch. -/
def Obligations.OnlyTheseWrite : Prop :=
  ∀ (i : Instr) (s t : State), exec i s = .next t →
    t.conf = s.conf ∧ t.port = s.port ∧
    ((∀ n, i ≠ .lcfg n) → t.cfg = s.cfg) ∧
    (∀ p, (∀ w on, i ≠ .pnew p w on) → (∀ a f, i ≠ .pset p a f) → (∀ a, i ≠ .prol p a) → (∀ a, i ≠ .pror p a) →
      (∀ on, i ≠ .lnewpat p on) → readSlot t p = readSlot s p) ∧
    (i ≠ .cen → i ≠ .cdis → i ≠ .lon → i ≠ .loff → (∀ l, i ≠ .pinevControl l) →
      t.pins.control = s.pins.control) ∧
    ((∀ v a, i ≠ .cshift v a) → (∀ v, i ≠ .cwrite v) → (∀ p, i ≠ .lset p) →
      ((∀ l, i ≠ .pinevClock l) → t.chain.S = s.chain.S ∧ t.pins.clock = s.pins.clock) ∧
      ((∀ l, i ≠ .pinevLatch l) → t.chain.Q = s.chain.Q ∧ t.pins.latch = s.pins.latch) ∧
      ((∀ l, i ≠ .pinevData l) → t.pins.data = s.pins.data))

/-! ## Pin events -/

/-- R106, R110: a successful `PinSet` of the data or the control line sets the record and the device's level, changes no
other line and neither register. -/
def Obligations.DataAndControlEvents : Prop :=
  ∀ (s : State) (level : Bool), NoFailure s 1 →
    (∃ t, exec (.pinevData level) s = .next t ∧ Issued s t [.set .data level] ∧
      t.pins = { s.pins with data := if level then .high else .low } ∧
      t.chain.seen = { s.chain.seen with data := if level then .high else .low } ∧
      t.chain.S = s.chain.S ∧ t.chain.Q = s.chain.Q ∧ SameStore s t ∧ SameInputs s t) ∧
    (∃ t, exec (.pinevControl level) s = .next t ∧ Issued s t [.set .control level] ∧
      t.pins = { s.pins with control := if level then .high else .low } ∧
      t.chain.seen = { s.chain.seen with control := if level then .high else .low } ∧
      t.chain.S = s.chain.S ∧ t.chain.Q = s.chain.Q ∧ SameStore s t ∧ SameInputs s t)

/-- R111: a rising clock edge moves every bit one stage away from the input and stage 0 takes the data level seen; a clock
that is already high, or driven low, moves nothing. -/
def Obligations.ClockEvents : Prop :=
  ∀ (s : State) (level : Bool), NoFailure s 1 → ChainWf s →
    ∃ t, exec (.pinevClock level) s = .next t ∧ Issued s t [.set .clock level] ∧
      t.pins = { s.pins with clock := if level then .high else .low } ∧
      t.chain.seen = { s.chain.seen with clock := if level then .high else .low } ∧
      t.chain.Q = s.chain.Q ∧ SameStore s t ∧ SameInputs s t ∧
      (level = true → s.chain.seen.clock = .low →
        (0 < s.conf.capacity → t.chain.S[0]? = some s.chain.seen.data) ∧
        ∀ k, 1 ≤ k → k < s.conf.capacity → t.chain.S[k]? = s.chain.S[k - 1]?) ∧
      (level = true → s.chain.seen.clock = .high → t.chain.S = s.chain.S) ∧
      (level = false → t.chain.S = s.chain.S)

/-- R112: a rising latch edge copies `S` to `Q` at once; a latch that is already high, or driven low, copies nothing. -/
def Obligations.LatchEvents : Prop :=
  ∀ (s : State) (level : Bool), NoFailure s 1 →
    ∃ t, exec (.pinevLatch level) s = .next t ∧ Issued s t [.set .latch level] ∧
      t.pins = { s.pins with latch := if level then .high else .low } ∧
      t.chain.seen = { s.chain.seen with latch := if level then .high else .low } ∧
      t.chain.S = s.chain.S ∧ SameStore s t ∧ SameInputs s t ∧
      (level = true → s.chain.seen.latch = .low → t.chain.Q = s.chain.S) ∧
      (level = true → s.chain.seen.latch = .high → t.chain.Q = s.chain.Q) ∧
      (level = false → t.chain.Q = s.chain.Q)

/-- R113: from an unknown level of the clock or the latch the device takes the rising edge or does not; an edge that
samples an unknown data level leaves an unknown bit in stage 0. -/
def Obligations.UnknownLevelsAreDraws : Prop :=
  ∀ s : State, NoFailure s 1 → ChainWf s →
    (s.chain.seen.clock = .x → ∃ t, exec (.pinevClock true) s = .next t ∧
      (((drawAt s 0).edge = true ∧ (0 < s.conf.capacity → t.chain.S[0]? = some s.chain.seen.data) ∧
          ∀ k, 1 ≤ k → k < s.conf.capacity → t.chain.S[k]? = s.chain.S[k - 1]?) ∨
        ((drawAt s 0).edge = false ∧ t.chain.S = s.chain.S))) ∧
    (s.chain.seen.latch = .x → ∃ t, exec (.pinevLatch true) s = .next t ∧
      (((drawAt s 0).edge = true ∧ t.chain.Q = s.chain.S) ∨
        ((drawAt s 0).edge = false ∧ t.chain.Q = s.chain.Q))) ∧
    (s.chain.seen.clock = .low → s.chain.seen.data = .x → 0 < s.conf.capacity →
      ∃ t, exec (.pinevClock true) s = .next t ∧ t.chain.S[0]? = some .x)

/-- R108, for a `PinSet` alone: the record and the device's level of that line become unknown, the other lines stay, the
operation stands in the trace, and the device reacted as to a success or not at all. -/
def Obligations.FailedPinEvents : Prop :=
  ∀ (line : Line) (level : Bool) (s : State) (e : BackendError), FirstFailure s 0 e →
    ∃ t, exec (pinEventOf line level) s = .next t ∧ Issued s t [.set line level] ∧
      lineLevel t.pins line = .x ∧ lineLevel t.chain.seen line = .x ∧
      (∀ other, other ≠ line → lineLevel t.pins other = lineLevel s.pins other ∧
        lineLevel t.chain.seen other = lineLevel s.chain.seen other) ∧
      ((drawAt s 0).reacted = false → t.chain.S = s.chain.S ∧ t.chain.Q = s.chain.Q) ∧
      ((drawAt s 0).reacted = true →
        t.chain.S = (chainReacts s.conf.capacity line level (drawAt s 0).edge s.chain).S ∧
        t.chain.Q = (chainReacts s.conf.capacity line level (drawAt s 0).edge s.chain).Q) ∧
      SameStore s t ∧ SameInputs s t

/-- A pin event presented alone gives no response, also when its operation fails. That is the model's choice (log 4). -/
def Obligations.PinEventsGiveNoResponse : Prop :=
  ∀ (line : Line) (level : Bool) (s : State), ∃ t, exec (pinEventOf line level) s = .next t ∧
    t.responses = s.responses ∧ Issued s t [.set line level] ∧ SameStore s t ∧ SameInputs s t
end

