-- ==== Sys2Proof/Laws/Assembler.lean ====
section
/-! SUPPORT. When an assembly operand fits its field, and what `assemble` answers then. -/

namespace Sys2Proof.Machine

@[simp] theorem asmSlot_val (q : Slot) : asmSlot q.val = some q := by
  unfold asmSlot
  rw [dif_pos q.isLt]

theorem asmSlot_none {p : Nat} (h : 16 ≤ p) : asmSlot p = none := by
  unfold asmSlot
  rw [dif_neg (by omega)]

@[simp] theorem asmValue_toNat (v : Word) : asmValue v.toNat = some v := by
  unfold asmValue
  rw [if_pos v.isLt]
  simp

theorem asmValue_none {v : Nat} (h : 2 ^ 64 ≤ v) : asmValue v = none := by
  unfold asmValue
  rw [if_neg (by omega)]

theorem assemble_of_wf {line : Asm} {i : Instr} (h : asmInstr line = some i) (hw : i.wf = true) :
    assemble line = some i := by
  unfold assemble
  rw [h, Option.filter_some, if_pos hw]

theorem assemble_of_not_wf {line : Asm} {i : Instr} (h : asmInstr line = some i) (hw : i.wf = false) :
    assemble line = none := by
  unfold assemble
  rw [h, Option.filter_some, if_neg (by simp [hw])]

theorem assemble_of_none {line : Asm} (h : asmInstr line = none) : assemble line = none := by
  unfold assemble
  rw [h]
  rfl

end Sys2Proof.Machine
end

