-- ==== Sys2Proof/Laws/State.lean ====
section
/-! SUPPORT. One lemma for each field of State and each update of Machine/Ops.lean, true by unfolding, and the laws of
slots and lines. -/

namespace Sys2Proof.Machine

/-! ## `writeSlot` -/

@[simp] theorem writeSlot_conf (s : State) (p : Slot) (pat : Pattern) :
    (writeSlot s p pat).conf = s.conf := rfl
@[simp] theorem writeSlot_slots (s : State) (p : Slot) (pat : Pattern) :
    (writeSlot s p pat).slots = s.slots.set p.val (some pat) := rfl
@[simp] theorem writeSlot_cfg (s : State) (p : Slot) (pat : Pattern) :
    (writeSlot s p pat).cfg = s.cfg := rfl
@[simp] theorem writeSlot_pins (s : State) (p : Slot) (pat : Pattern) :
    (writeSlot s p pat).pins = s.pins := rfl
@[simp] theorem writeSlot_chain (s : State) (p : Slot) (pat : Pattern) :
    (writeSlot s p pat).chain = s.chain := rfl
@[simp] theorem writeSlot_port (s : State) (p : Slot) (pat : Pattern) :
    (writeSlot s p pat).port = s.port := rfl
@[simp] theorem writeSlot_responses (s : State) (p : Slot) (pat : Pattern) :
    (writeSlot s p pat).responses = s.responses := rfl
@[simp] theorem writeSlot_trace (s : State) (p : Slot) (pat : Pattern) :
    (writeSlot s p pat).trace = s.trace := rfl
@[simp] theorem writeSlot_draws (s : State) (p : Slot) (pat : Pattern) :
    (writeSlot s p pat).draws = s.draws := rfl
@[simp] theorem writeSlot_drawn (s : State) (p : Slot) (pat : Pattern) :
    (writeSlot s p pat).drawn = s.drawn := rfl

/-! ## `respond` -/

@[simp] theorem respond_conf (s : State) (r : Response) :
    (respond s r).conf = s.conf := rfl
@[simp] theorem respond_slots (s : State) (r : Response) :
    (respond s r).slots = s.slots := rfl
@[simp] theorem respond_cfg (s : State) (r : Response) :
    (respond s r).cfg = s.cfg := rfl
@[simp] theorem respond_pins (s : State) (r : Response) :
    (respond s r).pins = s.pins := rfl
@[simp] theorem respond_chain (s : State) (r : Response) :
    (respond s r).chain = s.chain := rfl
@[simp] theorem respond_port (s : State) (r : Response) :
    (respond s r).port = s.port := rfl
@[simp] theorem respond_responses (s : State) (r : Response) :
    (respond s r).responses = s.responses ++ [r] := rfl
@[simp] theorem respond_trace (s : State) (r : Response) :
    (respond s r).trace = s.trace := rfl
@[simp] theorem respond_draws (s : State) (r : Response) :
    (respond s r).draws = s.draws := rfl
@[simp] theorem respond_drawn (s : State) (r : Response) :
    (respond s r).drawn = s.drawn := rfl

/-! ## `issueOp` -/

@[simp] theorem issueOp_conf (s : State) (op : PinOp) :
    (issueOp s op).conf = s.conf := rfl
@[simp] theorem issueOp_slots (s : State) (op : PinOp) :
    (issueOp s op).slots = s.slots := rfl
@[simp] theorem issueOp_cfg (s : State) (op : PinOp) :
    (issueOp s op).cfg = s.cfg := rfl
@[simp] theorem issueOp_pins (s : State) (op : PinOp) :
    (issueOp s op).pins = s.pins := rfl
@[simp] theorem issueOp_chain (s : State) (op : PinOp) :
    (issueOp s op).chain = s.chain := rfl
@[simp] theorem issueOp_port (s : State) (op : PinOp) :
    (issueOp s op).port = s.port := rfl
@[simp] theorem issueOp_responses (s : State) (op : PinOp) :
    (issueOp s op).responses = s.responses := rfl
@[simp] theorem issueOp_trace (s : State) (op : PinOp) :
    (issueOp s op).trace = s.trace ++ [op] := rfl
@[simp] theorem issueOp_draws (s : State) (op : PinOp) :
    (issueOp s op).draws = s.draws.tail := rfl
@[simp] theorem issueOp_drawn (s : State) (op : PinOp) :
    (issueOp s op).drawn = s.drawn + 1 := rfl

/-! ## `applyReset` -/

@[simp] theorem applyReset_conf (s : State) :
    (applyReset s).conf = s.conf := rfl
@[simp] theorem applyReset_slots (s : State) :
    (applyReset s).slots = Vector.replicate 16 none := rfl
@[simp] theorem applyReset_cfg (s : State) :
    (applyReset s).cfg = none := rfl
@[simp] theorem applyReset_pins (s : State) :
    (applyReset s).pins = Lines.allLow := rfl
@[simp] theorem applyReset_chain (s : State) :
    (applyReset s).chain = { s.chain with seen := Lines.allLow } := rfl
@[simp] theorem applyReset_port (s : State) :
    (applyReset s).port = s.port := rfl
@[simp] theorem applyReset_responses (s : State) :
    (applyReset s).responses = s.responses := rfl
@[simp] theorem applyReset_trace (s : State) :
    (applyReset s).trace = s.trace := rfl
@[simp] theorem applyReset_draws (s : State) :
    (applyReset s).draws = s.draws := rfl
@[simp] theorem applyReset_drawn (s : State) :
    (applyReset s).drawn = s.drawn := rfl

/-! ## `presentFirst` -/

@[simp] theorem presentFirst_conf (s : State) (r : Request) :
    (presentFirst s r).conf = s.conf := rfl
@[simp] theorem presentFirst_slots (s : State) (r : Request) :
    (presentFirst s r).slots = s.slots := rfl
@[simp] theorem presentFirst_cfg (s : State) (r : Request) :
    (presentFirst s r).cfg = s.cfg := rfl
@[simp] theorem presentFirst_pins (s : State) (r : Request) :
    (presentFirst s r).pins = s.pins := rfl
@[simp] theorem presentFirst_chain (s : State) (r : Request) :
    (presentFirst s r).chain = s.chain := rfl
@[simp] theorem presentFirst_port (s : State) (r : Request) :
    (presentFirst s r).port = r :: s.port := rfl
@[simp] theorem presentFirst_responses (s : State) (r : Request) :
    (presentFirst s r).responses = s.responses := rfl
@[simp] theorem presentFirst_trace (s : State) (r : Request) :
    (presentFirst s r).trace = s.trace := rfl
@[simp] theorem presentFirst_draws (s : State) (r : Request) :
    (presentFirst s r).draws = s.draws := rfl
@[simp] theorem presentFirst_drawn (s : State) (r : Request) :
    (presentFirst s r).drawn = s.drawn := rfl

/-! ## `construct` -/

@[simp] theorem construct_conf (c : Conf) :
    (State.construct c).conf = c := rfl
@[simp] theorem construct_slots (c : Conf) :
    (State.construct c).slots = Vector.replicate 16 none := rfl
@[simp] theorem construct_cfg (c : Conf) :
    (State.construct c).cfg = none := rfl
@[simp] theorem construct_pins (c : Conf) :
    (State.construct c).pins = Lines.allLow := rfl
@[simp] theorem construct_chain (c : Conf) :
    (State.construct c).chain = { S := List.replicate c.capacity .x, Q := List.replicate c.capacity .x, seen := Lines.allLow } := rfl
@[simp] theorem construct_port (c : Conf) :
    (State.construct c).port = [] := rfl
@[simp] theorem construct_responses (c : Conf) :
    (State.construct c).responses = [] := rfl
@[simp] theorem construct_trace (c : Conf) :
    (State.construct c).trace = [] := rfl
@[simp] theorem construct_draws (c : Conf) :
    (State.construct c).draws = [] := rfl
@[simp] theorem construct_drawn (c : Conf) :
    (State.construct c).drawn = 0 := rfl

/-! ## `raise` is `respond` -/

@[simp] theorem raise_eq_respond (s : State) (r : Response) : raise s r = respond s r := rfl

/-! ## Slots -/

@[simp] theorem readSlot_writeSlot_same (s : State) (p : Slot) (pat : Pattern) :
    readSlot (writeSlot s p pat) p = some pat := by
  simp [readSlot]

theorem readSlot_writeSlot_other (s : State) (p q : Slot) (pat : Pattern) (h : q ≠ p) :
    readSlot (writeSlot s p pat) q = readSlot s q := by
  have hv : ¬ p.val = q.val := fun e => h (Fin.ext e.symm)
  simp [readSlot, hv]

@[simp] theorem readSlot_respond (s : State) (r : Response) (p : Slot) :
    readSlot (respond s r) p = readSlot s p := rfl

@[simp] theorem readSlot_issueOp (s : State) (op : PinOp) (p : Slot) :
    readSlot (issueOp s op) p = readSlot s p := rfl

@[simp] theorem readSlot_applyReset (s : State) (p : Slot) : readSlot (applyReset s) p = none := by
  simp [readSlot]

theorem readSlot_of_slots_eq {s t : State} (h : t.slots = s.slots) (p : Slot) : readSlot t p = readSlot s p := by
  simp [readSlot, h]

/-! ## Lines -/

@[simp] theorem levelOf_true : levelOf true = .high := rfl
@[simp] theorem levelOf_false : levelOf false = .low := rfl

@[simp] theorem lineLevel_setLine_same (l : Lines) (line : Line) (v : Level) :
    lineLevel (setLine l line v) line = v := by
  cases line <;> rfl

theorem lineLevel_setLine_other (l : Lines) (line other : Line) (v : Level) (h : other ≠ line) :
    lineLevel (setLine l line v) other = lineLevel l other := by
  cases line <;> cases other <;> first | rfl | exact absurd rfl h

theorem lines_ext_of_lineLevel {a b : Lines} (h : ∀ line, lineLevel a line = lineLevel b line) : a = b := by
  cases a; cases b
  have h1 := h .data; have h2 := h .control; have h3 := h .clock; have h4 := h .latch
  simp only [lineLevel] at h1 h2 h3 h4
  subst h1 h2 h3 h4
  rfl

/-! ## The chain device -/

@[simp] theorem chainSees_S (c : Chain) (line : Line) (v : Level) : (chainSees c line v).S = c.S := rfl
@[simp] theorem chainSees_Q (c : Chain) (line : Line) (v : Level) : (chainSees c line v).Q = c.Q := rfl
@[simp] theorem chainSees_seen (c : Chain) (line : Line) (v : Level) :
    (chainSees c line v).seen = setLine c.seen line v := rfl
@[simp] theorem chainShift_Q (n : Nat) (c : Chain) : (chainShift n c).Q = c.Q := rfl
@[simp] theorem chainShift_seen (n : Nat) (c : Chain) : (chainShift n c).seen = c.seen := rfl
@[simp] theorem chainShift_S (n : Nat) (c : Chain) : (chainShift n c).S = (c.seen.data :: c.S).take n := rfl
@[simp] theorem chainLatch_S (c : Chain) : (chainLatch c).S = c.S := rfl
@[simp] theorem chainLatch_Q (c : Chain) : (chainLatch c).Q = c.S := rfl
@[simp] theorem chainLatch_seen (c : Chain) : (chainLatch c).seen = c.seen := rfl

@[simp] theorem chainDriven_seen (n : Nat) (line : Line) (level edge : Bool) (c : Chain) :
    (chainDriven n line level edge c).seen = c.seen := by
  unfold chainDriven
  split
  · cases line <;> rfl
  · rfl

@[simp] theorem chainReacts_seen (n : Nat) (line : Line) (level edge : Bool) (c : Chain) :
    (chainReacts n line level edge c).seen = setLine c.seen line (levelOf level) := by
  simp [chainReacts]

@[simp] theorem chainFails_seen (n : Nat) (line : Line) (level edge reacted : Bool) (c : Chain) :
    (chainFails n line level edge reacted c).seen = setLine c.seen line .x := by
  unfold chainFails
  split <;> simp

/-- Driving a line low is never an edge (R111, R112). -/
@[simp] theorem chainDriven_false (n : Nat) (line : Line) (edge : Bool) (c : Chain) :
    chainDriven n line false edge c = c := by
  simp [chainDriven, risingEdge]

/-- The data line is sampled only at a clock edge (R110). -/
@[simp] theorem chainDriven_data (n : Nat) (level edge : Bool) (c : Chain) :
    chainDriven n .data level edge c = c := by
  simp [chainDriven, chainEdge]

/-- The control line changes neither register (R110). -/
@[simp] theorem chainDriven_control (n : Nat) (level edge : Bool) (c : Chain) :
    chainDriven n .control level edge c = c := by
  simp [chainDriven, chainEdge]

/-- The number of stages is kept by whatever a line does. -/
theorem chainDriven_lengths (n : Nat) (line : Line) (level edge : Bool) (c : Chain)
    (hS : c.S.length = n) (hQ : c.Q.length = n) :
    (chainDriven n line level edge c).S.length = n ∧ (chainDriven n line level edge c).Q.length = n := by
  unfold chainDriven
  split
  · cases line <;> simp [chainEdge, hS, hQ]
  · exact ⟨hS, hQ⟩

end Sys2Proof.Machine
end

