-- ==== Sys2Proof/Laws/Ops.lean ====
section
/-! SUPPORT. What each shared operation can do, said once: pin operations, sequences of them, commands. -/

namespace Sys2Proof.Machine

/-! ## What issuing `ops` leaves alone, and what it adds to the trace -/

/-- From `s` to `t` exactly the pin operations `ops` were issued, and only the lines and the device may differ besides. -/
structure OpsFrame (s t : State) (ops : List PinOp) : Prop where
  conf : t.conf = s.conf
  slots : t.slots = s.slots
  cfg : t.cfg = s.cfg
  port : t.port = s.port
  responses : t.responses = s.responses
  trace : t.trace = s.trace ++ ops
  draws : t.draws = s.draws.drop ops.length
  drawn : t.drawn = s.drawn + ops.length

theorem OpsFrame.refl (s : State) : OpsFrame s s [] := by
  constructor <;> simp

theorem OpsFrame.trans {s t u : State} {a b : List PinOp} (h : OpsFrame s t a) (g : OpsFrame t u b) :
    OpsFrame s u (a ++ b) where
  conf := g.conf.trans h.conf
  slots := g.slots.trans h.slots
  cfg := g.cfg.trans h.cfg
  port := g.port.trans h.port
  responses := g.responses.trans h.responses
  trace := by simp [g.trace, h.trace]
  draws := by simp [g.draws, h.draws]
  drawn := by simp [g.drawn, h.drawn, Nat.add_assoc]

theorem drawAt_of_frame {s t : State} {ops : List PinOp} (h : OpsFrame s t ops) (j : Nat) :
    drawAt t j = drawAt s (ops.length + j) := by
  simp [drawAt, h.draws, h.drawn, List.getElem?_drop, Nat.add_assoc]

/-- The premise "no failure" moves past the operations issued. -/
theorem noFailure_of_frame {s t : State} {ops : List PinOp} {n : Nat} (h : OpsFrame s t ops)
    (hn : NoFailure s (ops.length + n)) : NoFailure t n := fun j hj => by
  rw [drawAt_of_frame h]
  exact hn _ (by omega)

theorem noFailure_mono {s : State} {m n : Nat} (h : NoFailure s n) (hm : m ≤ n) : NoFailure s m :=
  fun j hj => h j (by omega)

/-! ## One pin operation -/

theorem setSucceeds_frame (line : Line) (level : Bool) (d : Draw) (s : State) :
    OpsFrame s (setSucceeds line level d s) [.set line level] := by
  constructor <;> simp [setSucceeds]

theorem setFails_frame (line : Line) (level : Bool) (d : Draw) (s : State) :
    OpsFrame s (setFails line level d s) [.set line level] := by
  constructor <;> simp [setFails]

theorem issueOp_frame (s : State) (op : PinOp) : OpsFrame s (issueOp s op) [op] := by
  constructor <;> simp

@[simp] theorem setSucceeds_pins (line : Line) (level : Bool) (d : Draw) (s : State) :
    (setSucceeds line level d s).pins = setLine s.pins line (levelOf level) := rfl

@[simp] theorem setSucceeds_chain (line : Line) (level : Bool) (d : Draw) (s : State) :
    (setSucceeds line level d s).chain = chainReacts s.conf.capacity line level d.edge s.chain := rfl

@[simp] theorem setFails_pins (line : Line) (level : Bool) (d : Draw) (s : State) :
    (setFails line level d s).pins = setLine s.pins line .x := rfl

@[simp] theorem setFails_chain (line : Line) (level : Bool) (d : Draw) (s : State) :
    (setFails line level d s).chain = chainFails s.conf.capacity line level d.edge d.reacted s.chain := rfl

/-- Everything a `PinSet` can do (R106, R108). -/
theorem pinSet_cases (line : Line) (level : Bool) (s : State) :
    ((drawAt s 0).io = .ok ∧ pinSet line level s = (setSucceeds line level (drawAt s 0) s, .ok)) ∨
    ∃ e, (drawAt s 0).io = .failed e ∧ pinSet line level s = (setFails line level (drawAt s 0) s, .failed e) := by
  unfold pinSet
  cases h : (drawAt s 0).io with
  | ok => exact .inl ⟨rfl, rfl⟩
  | failed e => exact .inr ⟨e, rfl, rfl⟩

theorem pinSet_ok {line : Line} {level : Bool} {s : State} (h : (drawAt s 0).io = .ok) :
    pinSet line level s = (setSucceeds line level (drawAt s 0) s, .ok) := by
  simp [pinSet, h]

theorem pinSet_failed {line : Line} {level : Bool} {s : State} {e : BackendError}
    (h : (drawAt s 0).io = .failed e) :
    pinSet line level s = (setFails line level (drawAt s 0) s, .failed e) := by
  simp [pinSet, h]

theorem pinOp_set_ok {line : Line} {level : Bool} {s : State} (h : (drawAt s 0).io = .ok) :
    pinOp (.set line level) s = (setSucceeds line level (drawAt s 0) s, .ok 0) := by
  simp [pinOp, pinSet_ok h]

theorem pinOp_set_failed {line : Line} {level : Bool} {s : State} {e : BackendError}
    (h : (drawAt s 0).io = .failed e) :
    pinOp (.set line level) s = (setFails line level (drawAt s 0) s, .error e) := by
  simp [pinOp, pinSet_failed h]

theorem pinOp_get_ok {s : State} (h : (drawAt s 0).io = .ok) :
    pinOp .getControl s = (issueOp s .getControl,
      .ok (bitWord (ctlReadback s.conf.readback s.pins.control (drawAt s 0).sensed))) := by
  simp [pinOp, pinGet, h]

theorem pinOp_get_failed {s : State} {e : BackendError} (h : (drawAt s 0).io = .failed e) :
    pinOp .getControl s = (issueOp s .getControl, .error e) := by
  simp [pinOp, pinGet, h]

/-- Everything one operation of a command can do. -/
theorem pinOp_cases (op : PinOp) (s : State) :
    ((drawAt s 0).io = .ok ∧ ∃ t v, pinOp op s = (t, .ok v) ∧ OpsFrame s t [op] ∧
      match op with
      | .set line level => t = setSucceeds line level (drawAt s 0) s ∧ v = 0
      | .getControl => t = issueOp s .getControl ∧
          v = bitWord (ctlReadback s.conf.readback s.pins.control (drawAt s 0).sensed)) ∨
    ∃ e, (drawAt s 0).io = .failed e ∧ ∃ t, pinOp op s = (t, .error e) ∧ OpsFrame s t [op] ∧
      match op with
      | .set line level => t = setFails line level (drawAt s 0) s
      | .getControl => t = issueOp s .getControl := by
  cases h : (drawAt s 0).io with
  | ok =>
    left
    cases op with
    | set line level =>
      exact ⟨rfl, _, _, pinOp_set_ok h, setSucceeds_frame _ _ _ _, rfl, rfl⟩
    | getControl => exact ⟨rfl, _, _, pinOp_get_ok h, issueOp_frame _ _, rfl, rfl⟩
  | failed e =>
    right
    cases op with
    | set line level => exact ⟨e, rfl, _, pinOp_set_failed h, setFails_frame _ _ _ _, rfl⟩
    | getControl => exact ⟨e, rfl, _, pinOp_get_failed h, issueOp_frame _ _, rfl⟩

/-! ## Sequences of pin operations -/

@[simp] theorem runPins_nil (k : Nat) (r : Word) (s : State) : runPins [] k r s = .completed s r := rfl

theorem runPins_cons_ok {op : PinOp} {s t : State} {v : Word} (ops : List PinOp) (k : Nat) (r : Word)
    (h : pinOp op s = (t, .ok v)) : runPins (op :: ops) k r s = runPins ops (k + 1) v t := by
  simp [runPins, h]

theorem runPins_cons_failed {op : PinOp} {s t : State} {e : BackendError} (ops : List PinOp) (k : Nat) (r : Word)
    (h : pinOp op s = (t, .error e)) : runPins (op :: ops) k r s = .failed t k e := by
  simp [runPins, h]

theorem runPins_append (a b : List PinOp) (k : Nat) (r : Word) (s : State) :
    runPins (a ++ b) k r s =
      match runPins a k r s with
      | .completed t v => runPins b (k + a.length) v t
      | .failed t j e => .failed t j e := by
  induction a generalizing k r s with
  | nil => simp
  | cons op a ih =>
    rcases pinOp_cases op s with ⟨-, t, v, h, -⟩ | ⟨e, -, t, h, -⟩
    · simp only [List.cons_append, runPins_cons_ok _ _ _ h, ih, List.length_cons]
      rw [show k + 1 + a.length = k + (a.length + 1) by omega]
    · simp only [List.cons_append, runPins_cons_failed _ _ _ h]

/-- Everything a sequence can do: it completes and issued all, or one operation is the first to fail and nothing after it
was issued (R37, R108). -/
theorem runPins_cases (ops : List PinOp) (k : Nat) (r : Word) (s : State) :
    (NoFailure s ops.length ∧ ∃ t v, runPins ops k r s = .completed t v ∧ OpsFrame s t ops) ∨
    ∃ j e, j < ops.length ∧ FirstFailure s j e ∧
      ∃ t, runPins ops k r s = .failed t (k + j) e ∧ OpsFrame s t (ops.take (j + 1)) := by
  induction ops generalizing k r s with
  | nil => exact .inl ⟨fun j hj => absurd hj (by simp), s, r, rfl, OpsFrame.refl s⟩
  | cons op ops ih =>
    rcases pinOp_cases op s with ⟨hd, t, v, h, hf, -⟩ | ⟨e, hd, t, h, hf, -⟩
    · have shift : ∀ j, drawAt t j = drawAt s (j + 1) := fun j => by
        rw [drawAt_of_frame hf]; simp [Nat.add_comm]
      have hno : ∀ n, NoFailure t n → NoFailure s (n + 1) := fun n hn j hj => by
        cases j with
        | zero => exact hd
        | succ j => rw [← shift]; exact hn j (by omega)
      rw [runPins_cons_ok _ _ _ h]
      rcases ih (k + 1) v t with ⟨hn, u, w, hu, huf⟩ | ⟨j, e, hj, ⟨hn, he⟩, u, hu, huf⟩
      · exact .inl ⟨hno _ hn, u, w, hu, hf.trans huf⟩
      · refine .inr ⟨j + 1, e, by simpa using hj, ⟨hno _ hn, by rw [← shift]; exact he⟩, u, ?_, hf.trans huf⟩
        rw [hu, show k + 1 + j = k + (j + 1) by omega]
    · refine .inr ⟨0, e, by simp, ⟨fun j hj => absurd hj (by omega), hd⟩, t, ?_, by simpa using hf⟩
      rw [runPins_cons_failed _ _ _ h]
      simp

theorem runPins_completes {ops : List PinOp} {s : State} (k : Nat) (r : Word) (h : NoFailure s ops.length) :
    ∃ t v, runPins ops k r s = .completed t v ∧ OpsFrame s t ops := by
  rcases runPins_cases ops k r s with ⟨-, g⟩ | ⟨j, e, hj, ⟨-, he⟩, -⟩
  · exact g
  · rw [h j hj] at he
    cases he

theorem runPins_stops {ops : List PinOp} {s : State} {j : Nat} {e : BackendError} (k : Nat) (r : Word)
    (hj : j < ops.length) (h : FirstFailure s j e) :
    ∃ t, runPins ops k r s = .failed t (k + j) e ∧ OpsFrame s t (ops.take (j + 1)) := by
  rcases runPins_cases ops k r s with ⟨hn, -⟩ | ⟨i, e', hi, ⟨hn, he⟩, t, ht, hf⟩
  · have := hn j hj
    rw [h.2] at this
    cases this
  · have hij : i = j := by
      rcases Nat.lt_trichotomy i j with hlt | heq | hgt
      · rw [h.1 i hlt] at he
        cases he
      · exact heq
      · have := hn j hgt
        rw [h.2] at this
        cases this
    subst hij
    rw [h.2] at he
    cases he
    exact ⟨t, ht, hf⟩

/-- Each operation of a sequence keeps what one operation keeps. -/
theorem runPins_induction {P : State → Prop} (ops : List PinOp)
    (step : ∀ op ∈ ops, ∀ s t v, P s → pinOp op s = (t, v) → P t) (k : Nat) (r : Word) (s : State) (hs : P s) :
    (∀ t v, runPins ops k r s = .completed t v → P t) ∧ ∀ t j e, runPins ops k r s = .failed t j e → P t := by
  induction ops generalizing k r s with
  | nil =>
    refine ⟨fun t v h => ?_, fun t j e h => ?_⟩
    · cases h; exact hs
    · cases h
  | cons op ops ih =>
    have step' : ∀ op' ∈ ops, ∀ s t v, P s → pinOp op' s = (t, v) → P t :=
      fun op' h => step op' (List.mem_cons_of_mem _ h)
    rcases pinOp_cases op s with ⟨-, t, v, h, -⟩ | ⟨e, -, t, h, -⟩
    · rw [runPins_cons_ok _ _ _ h]
      exact ih step' (k + 1) v t (step op List.mem_cons_self s t _ hs h)
    · rw [runPins_cons_failed _ _ _ h]
      refine ⟨fun u v hu => (by cases hu), fun u j e' hu => ?_⟩
      cases hu
      exact step op List.mem_cons_self s _ _ hs h

/-! ## Commands whose effect is pin operations -/

theorem issueAll_completed {ops : List PinOp} {s t : State} {v : Word} (h : runPins ops 0 0 s = .completed t v) :
    issueAll ops s = respond t (okResponse v) := by
  unfold issueAll
  rw [h]

theorem issueAll_failed {ops : List PinOp} {s t : State} {k : Nat} {e : BackendError}
    (h : runPins ops 0 0 s = .failed t k e) : issueAll ops s = respond t (backendResponse k e) := by
  unfold issueAll
  rw [h]
  rfl

/-- Everything such a command can do (R37, R101, R108). -/
theorem issueAll_cases (ops : List PinOp) (s : State) :
    (NoFailure s ops.length ∧ ∃ t v, runPins ops 0 0 s = .completed t v ∧ OpsFrame s t ops ∧
      issueAll ops s = respond t (okResponse v)) ∨
    ∃ j e, j < ops.length ∧ FirstFailure s j e ∧ ∃ t, runPins ops 0 0 s = .failed t j e ∧
      OpsFrame s t (ops.take (j + 1)) ∧ issueAll ops s = respond t (backendResponse j e) := by
  rcases runPins_cases ops 0 0 s with ⟨hn, t, v, h, hf⟩ | ⟨j, e, hj, he, t, h, hf⟩
  · exact .inl ⟨hn, t, v, h, hf, issueAll_completed h⟩
  · rw [Nat.zero_add] at h
    exact .inr ⟨j, e, hj, he, t, h, hf, issueAll_failed h⟩

@[simp] theorem commit_writes (t : State) (v : Word) (s : State) :
    commit (.writes t v) s = respond t (okResponse v) := rfl

@[simp] theorem commit_raises (r : Response) (s : State) : commit (.raises r) s = respond s r := rfl

@[simp] theorem commit_pins (ops : List PinOp) (s : State) : commit (.pins ops) s = issueAll ops s := rfl

theorem whenConfigured_none {s : State} (rest : Nat → Effect) (h : s.cfg = none) :
    whenConfigured s rest = .raises (errorResponse .notConfigured) := by
  simp [whenConfigured, h]

theorem whenConfigured_some {s : State} {n : Nat} (rest : Nat → Effect) (h : s.cfg = some n) :
    whenConfigured s rest = rest n := by
  simp [whenConfigured, h]

theorem whenPattern_none {s : State} {p : Slot} (rest : Pattern → Effect) (h : readSlot s p = none) :
    whenPattern s p rest = .raises (errorResponse .noPattern) := by
  simp [whenPattern, h]

theorem whenPattern_some {s : State} {p : Slot} {pat : Pattern} (rest : Pattern → Effect)
    (h : readSlot s p = some pat) : whenPattern s p rest = rest pat := by
  simp [whenPattern, h]

end Sys2Proof.Machine
end

