-- ==== Sys2Proof/Laws/Bits.lean ====
section
/-! SUPPORT. The light-by-light reading of masks, fills, single-light writes and rotations (41_pattern.md R62 to R69). -/

namespace Sys2Proof.Machine

theorem testBit_mask (w i : Nat) : (mask w).testBit i = decide (i < w) := by
  simp [mask, Nat.shiftLeft_eq, Nat.testBit_two_pow_sub_one]

theorem lightOn_toWord (n i : Nat) : lightOn (toWord n) i = (decide (i < 64) && n.testBit i) := by
  simp only [lightOn, toWord, BitVec.toNat_ofNat]
  exact Nat.testBit_mod_two_pow n 64 i

/-- A word of 64 bits has no light at 64 or above. -/
theorem lightOn_ge (b : Word) (i : Nat) (h : 64 ≤ i) : lightOn b i = false := by
  simp only [lightOn]
  exact Nat.testBit_lt_two_pow (lt_of_lt_of_le b.isLt (Nat.pow_le_pow_right (by omega) h))

/-- Two words with the same lights are the same word. -/
theorem word_ext_of_lightOn {a b : Word} (h : ∀ i, lightOn a i = lightOn b i) : a = b :=
  BitVec.eq_of_toNat_eq (Nat.eq_of_testBit_eq h)

/-- The Pattern invariant, light by light: no light at or above the width is on (R12). -/
theorem bits_masked_iff (pat : Pattern) :
    pat.bits.toNat &&& mask pat.width = pat.bits.toNat ↔ ∀ i, pat.width ≤ i → lightOn pat.bits i = false := by
  constructor
  · intro h i hi
    rw [lightOn, ← h, Nat.testBit_and, testBit_mask]
    simp [Nat.not_lt.mpr hi]
  · intro h
    refine Nat.eq_of_testBit_eq fun i => ?_
    rw [Nat.testBit_and, testBit_mask]
    by_cases hi : i < pat.width
    · simp [hi]
    · have := h i (by omega)
      simp only [lightOn] at this
      simp [this]

theorem lightOn_of_wf_ge {pat : Pattern} (h : pat.wf) {i : Nat} (hi : pat.width ≤ i) :
    lightOn pat.bits i = false := (bits_masked_iff pat).mp h.2.2 i hi

theorem lightOn_filled (w : Nat) (on : Bool) (hw : w ≤ 64) (i : Nat) :
    lightOn (filled w on) i = (on && decide (i < w)) := by
  unfold filled
  rw [lightOn_toWord]
  cases on
  · simp
  · simp only [if_true, testBit_mask, Bool.true_and]
    by_cases hi : i < w
    · have : i < 64 := by omega
      simp [hi, this]
    · simp [hi]

theorem testBit_mask_sub (w a i : Nat) (ha : a < w) :
    (mask w - (1 <<< a)).testBit i = (decide (i < w) && decide (i ≠ a)) := by
  have h1 : mask w = 2 ^ w - 1 := by simp [mask, Nat.shiftLeft_eq]
  have h2 : (1 : Nat) <<< a = 2 ^ a := by simp [Nat.shiftLeft_eq]
  have h3 : mask w - (1 <<< a) = 2 ^ w - (2 ^ a + 1) := by rw [h1, h2]; omega
  have h4 : 2 ^ a < 2 ^ w := Nat.pow_lt_pow_right (by omega) ha
  rw [h3, Nat.testBit_two_pow_sub_succ h4, Nat.testBit_two_pow]
  by_cases hia : i = a
  · simp [hia]
  · simp [hia, Ne.symm hia]

theorem testBit_bool_shiftLeft (f : Bool) (a i : Nat) :
    (f.toNat <<< a).testBit i = (f && decide (i = a)) := by
  rw [Nat.testBit_shiftLeft]
  by_cases h : i = a
  · cases f <;> simp [h]
  · cases f
    · simp
    · by_cases hge : a ≤ i
      · have : i - a ≠ 0 := by omega
        have h1 : Nat.testBit 1 (i - a) = false := Nat.testBit_lt_two_pow (Nat.one_lt_two_pow this)
        simp [h, hge, h1]
      · simp [hge, h]

/-- Writing light `a` writes that light and no other (R64). -/
theorem lightOn_setLight {pat : Pattern} (h : pat.wf) {a : Nat} (f : Bool) (ha : a < pat.width) (i : Nat) :
    lightOn (setLight pat a f) i = if i = a then f else lightOn pat.bits i := by
  have hw : pat.width ≤ 64 := h.2.1
  rw [setLight, lightOn_toWord, Nat.testBit_or, Nat.testBit_and, testBit_mask_sub _ _ _ ha,
    testBit_bool_shiftLeft]
  by_cases hia : i = a
  · have : i < 64 := by omega
    simp [hia]; omega
  · by_cases hi : i < pat.width
    · have : i < 64 := by omega
      simp [hia, hi, this, lightOn]
    · have := lightOn_of_wf_ge h (Nat.not_lt.mp hi)
      simp [hia, hi, this]

/-- Rotating left by `a` moves light `i` to `(i + a) mod w` (R65). -/
theorem lightOn_rotateLeft {pat : Pattern} (h : pat.wf) (a i : Nat) (hi : i < pat.width) :
    lightOn (rotateLeft pat a) ((i + a) % pat.width) = lightOn pat.bits i := by
  have hw : pat.width ≤ 64 := h.2.1
  have hpos : 0 < pat.width := h.1
  simp only [rotateLeft, rotateCount]
  have hc : a % pat.width < pat.width := Nat.mod_lt _ hpos
  have hmod : (i + a) % pat.width = (i + a % pat.width) % pat.width := by simp
  rw [hmod, lightOn_toWord]
  generalize a % pat.width = c at *
  have hj : (i + c) % pat.width < pat.width := Nat.mod_lt _ hpos
  have hj64 : (i + c) % pat.width < 64 := by omega
  rw [Nat.testBit_and, testBit_mask, Nat.testBit_or, Nat.testBit_shiftLeft, Nat.testBit_shiftRight]
  simp only [hj, hj64, decide_true, Bool.true_and, Bool.and_true]
  by_cases hov : i + c < pat.width
  · rw [Nat.mod_eq_of_lt hov]
    have hz : pat.bits.toNat.testBit (pat.width - c + (i + c)) = false :=
      lightOn_of_wf_ge h (by omega)
    simp [hz, lightOn]
  · have he : (i + c) % pat.width = i + c - pat.width := by
      rw [Nat.mod_eq_sub_mod (by omega), Nat.mod_eq_of_lt (by omega)]
    rw [he]
    have h1 : ¬ i + c - pat.width ≥ c := by omega
    have h2 : pat.width - c + (i + c - pat.width) = i := by omega
    simp [h1, h2, lightOn]

theorem lightOn_rotateLeft_ge {pat : Pattern} (a i : Nat) (hi : pat.width ≤ i) :
    lightOn (rotateLeft pat a) i = false := by
  simp only [rotateLeft]
  rw [lightOn_toWord, Nat.testBit_and, testBit_mask]
  simp [Nat.not_lt.mpr hi]

/-- Rotating right by `a` moves light `(i + a) mod w` to `i` (R66). -/
theorem lightOn_rotateRight {pat : Pattern} (h : pat.wf) (a i : Nat) (hi : i < pat.width) :
    lightOn (rotateRight pat a) i = lightOn pat.bits ((i + a) % pat.width) := by
  have hw : pat.width ≤ 64 := h.2.1
  have hpos : 0 < pat.width := h.1
  simp only [rotateRight, rotateCount]
  have hc : a % pat.width < pat.width := Nat.mod_lt _ hpos
  have hmod : (i + a) % pat.width = (i + a % pat.width) % pat.width := by simp
  rw [hmod, lightOn_toWord]
  generalize a % pat.width = c at *
  have hi64 : i < 64 := by omega
  rw [Nat.testBit_or, Nat.testBit_shiftRight, Nat.testBit_shiftLeft, Nat.testBit_and, testBit_mask]
  simp only [hi64, decide_true, Bool.true_and]
  by_cases hov : i + c < pat.width
  · rw [Nat.mod_eq_of_lt hov]
    have h1 : ¬ i ≥ pat.width - c := by omega
    simp [h1, lightOn, Nat.add_comm]
  · have he : (i + c) % pat.width = i + c - pat.width := by
      rw [Nat.mod_eq_sub_mod (by omega), Nat.mod_eq_of_lt (by omega)]
    rw [he]
    have hz : pat.bits.toNat.testBit (c + i) = false := lightOn_of_wf_ge h (by omega)
    have h1 : i ≥ pat.width - c := by omega
    have h2 : i - (pat.width - c) = i + c - pat.width := by omega
    have h3 : i + c - pat.width < c := by omega
    simp [hz, h1, h2, h3, lightOn]

theorem lightOn_rotateRight_ge {pat : Pattern} (h : pat.wf) (a i : Nat) (hi : pat.width ≤ i) :
    lightOn (rotateRight pat a) i = false := by
  have hpos : 0 < pat.width := h.1
  simp only [rotateRight, rotateCount]
  have hc : a % pat.width < pat.width := Nat.mod_lt _ hpos
  rw [lightOn_toWord]
  generalize a % pat.width = c at *
  rw [Nat.testBit_or, Nat.testBit_shiftRight, Nat.testBit_shiftLeft, Nat.testBit_and, testBit_mask]
  have hz : pat.bits.toNat.testBit (c + i) = false := lightOn_of_wf_ge h (by omega)
  have h2 : ¬ i - (pat.width - c) < c := by omega
  simp [hz, h2]

/-! ## The operations keep the Pattern invariant -/

theorem wf_filled {w : Nat} (on : Bool) (h1 : 1 ≤ w) (h2 : w ≤ 64) :
    Pattern.wf { width := w, bits := filled w on } := by
  refine ⟨h1, h2, (bits_masked_iff _).mpr fun i hi => ?_⟩
  simp only at hi ⊢
  rw [lightOn_filled w on h2]
  simp [Nat.not_lt.mpr hi]

theorem wf_setLight {pat : Pattern} (h : pat.wf) {a : Nat} (f : Bool) (ha : a < pat.width) :
    Pattern.wf { pat with bits := setLight pat a f } := by
  refine ⟨h.1, h.2.1, (bits_masked_iff _).mpr fun i hi => ?_⟩
  simp only at hi ⊢
  rw [lightOn_setLight h f ha, if_neg (by omega)]
  exact lightOn_of_wf_ge h hi

theorem wf_rotateLeft {pat : Pattern} (h : pat.wf) (a : Nat) :
    Pattern.wf { pat with bits := rotateLeft pat a } :=
  ⟨h.1, h.2.1, (bits_masked_iff _).mpr fun i hi => lightOn_rotateLeft_ge a i hi⟩

theorem wf_rotateRight {pat : Pattern} (h : pat.wf) (a : Nat) :
    Pattern.wf { pat with bits := rotateRight pat a } :=
  ⟨h.1, h.2.1, (bits_masked_iff _).mpr fun i hi => lightOn_rotateRight_ge h a i hi⟩

end Sys2Proof.Machine
end

