-- ==== Sys2Proof/Laws/Shift.lean ====
section
/-! SUPPORT. What CSHIFT's pin operations do to the lines and the device when none fails (42_chain.md R79, R83). -/

namespace Sys2Proof.Machine

/-- The stages the first `n` bits of `v` fill, stage 0 first: the last bit sent stands in stage 0 (R83). -/
def sentBits (v n : Nat) : List Level := ((List.range n).map fun i => levelOf (v.testBit i)).reverse

@[simp] theorem sentBits_zero (v : Nat) : sentBits v 0 = [] := rfl

@[simp] theorem sentBits_length (v n : Nat) : (sentBits v n).length = n := by simp [sentBits]

theorem sentBits_succ (v n : Nat) : sentBits v (n + 1) = sentBits (v >>> 1) n ++ [levelOf (v.testBit 0)] := by
  simp only [sentBits, List.range_succ_eq_map, List.map_cons, List.map_map, List.reverse_cons]
  congr 2
  refine List.map_congr_left fun i _ => ?_
  simp [Nat.testBit_shiftRight, Nat.add_comm]

theorem sentBits_getElem? (v n k : Nat) (h : k < n) :
    (sentBits v n)[k]? = some (levelOf (v.testBit (n - 1 - k))) := by
  rw [sentBits, List.getElem?_reverse (by simpa using h)]
  simp [show n - 1 - k < n by omega]

@[simp] theorem shiftBit_length (b : Bool) : (shiftBit b).length = 3 := rfl

@[simp] theorem shiftIterations_length (n v : Nat) : (shiftIterations n v).length = 3 * n := by
  induction n generalizing v with
  | zero => rfl
  | succ n ih => simp [shiftIterations, ih]; omega

@[simp] theorem shiftOps_length (value : Word) (a : Nat) : (shiftOps value a).length = 3 + 3 * a := by
  simp [shiftOps]; omega

/-- Iteration `i` sends bit `i` (R79, R81). -/
theorem shiftIterations_eq (n v : Nat) :
    shiftIterations n v = (List.range n).flatMap fun i => shiftBit (v.testBit i) := by
  induction n generalizing v with
  | zero => rfl
  | succ n ih =>
    simp only [shiftIterations, ih, List.range_succ_eq_map, List.flatMap_cons, List.flatMap_map]
    congr 1
    refine List.flatMap_congr fun i _ => ?_
    simp [Nat.testBit_shiftRight, Nat.add_comm]

/-- One iteration: the device takes the bit at the rising edge, whatever the clock level was before (R79, R82, R111). -/
theorem shiftBit_run (b : Bool) (k : Nat) (r : Word) (s : State) (h : NoFailure s 3) :
    ∃ t, runPins (shiftBit b) k r s = .completed t 0 ∧ OpsFrame s t (shiftBit b) ∧
      t.pins = { s.pins with clock := .high, data := levelOf b } ∧
      t.chain = { S := (levelOf b :: s.chain.S).take s.conf.capacity, Q := s.chain.Q,
                  seen := { s.chain.seen with clock := .high, data := levelOf b } } := by
  have f0 := setSucceeds_frame .clock false (drawAt s 0) s
  have o0 := pinOp_set_ok (line := .clock) (level := false) (h 0 (by omega))
  generalize ht0 : setSucceeds .clock false (drawAt s 0) s = t0 at f0 o0
  have n0 : NoFailure t0 2 := noFailure_of_frame f0 h
  have f1 := setSucceeds_frame .data b (drawAt t0 0) t0
  have o1 := pinOp_set_ok (line := .data) (level := b) (n0 0 (by omega))
  generalize ht1 : setSucceeds .data b (drawAt t0 0) t0 = t1 at f1 o1
  have n1 : NoFailure t1 1 := noFailure_of_frame f1 n0
  have f2 := setSucceeds_frame .clock true (drawAt t1 0) t1
  have o2 := pinOp_set_ok (line := .clock) (level := true) (n1 0 (by omega))
  refine ⟨_, ?_, (f0.trans f1).trans f2, ?_, ?_⟩
  · rw [shiftBit, runPins_cons_ok _ _ _ o0, runPins_cons_ok _ _ _ o1, runPins_cons_ok _ _ _ o2, runPins_nil]
  · simp [← ht1, ← ht0, setLine]
  · rw [setSucceeds_chain, ← ht1, setSucceeds_chain, ← ht0, setSucceeds_chain]
    simp [chainReacts, chainSees, chainDriven, risingEdge, lineLevel, setLine, chainEdge, chainShift, setSucceeds]

/-- The iterations: `n` bits of `v` enter the chain, the last one in stage 0 (R83). -/
theorem shiftIterations_run (n v k : Nat) (r : Word) (s : State) (h : NoFailure s (3 * n)) :
    ∃ t, runPins (shiftIterations n v) k r s = .completed t (if n = 0 then r else 0) ∧
      OpsFrame s t (shiftIterations n v) ∧
      t.pins = { s.pins with
        clock := if n = 0 then s.pins.clock else .high
        data := if n = 0 then s.pins.data else levelOf (v.testBit (n - 1)) } ∧
      (s.chain.S.length ≤ s.conf.capacity → t.chain.S = (sentBits v n ++ s.chain.S).take s.conf.capacity) ∧
      t.chain.Q = s.chain.Q ∧
      t.chain.seen = { s.chain.seen with
        clock := if n = 0 then s.chain.seen.clock else .high
        data := if n = 0 then s.chain.seen.data else levelOf (v.testBit (n - 1)) } := by
  induction n generalizing v k r s with
  | zero => exact ⟨s, by simp [shiftIterations], OpsFrame.refl s, by simp, fun hS => by simp [List.take_of_length_le hS], rfl, by simp⟩
  | succ n ih =>
    obtain ⟨t, ht, hf, hp, hc⟩ := shiftBit_run (v.testBit 0) k r s (noFailure_mono h (by omega))
    have hn : NoFailure t (3 * n) := noFailure_of_frame hf (by
      rw [shiftBit_length, show 3 + 3 * n = 3 * (n + 1) by omega]; exact h)
    obtain ⟨u, hu, huf, hup, huS, huQ, hus⟩ := ih (v >>> 1) (k + 3) 0 t hn
    refine ⟨u, ?_, hf.trans huf, ?_, ?_, ?_, ?_⟩
    · rw [shiftIterations, runPins_append, ht]
      simp only [shiftBit_length, hu]
      split <;> rfl
    · rw [hup, hp]
      by_cases h0 : n = 0
      · simp [h0]
      · simp [h0, Nat.testBit_shiftRight, show 1 + (n - 1) = n by omega]
    · intro _
      rw [huS (by rw [hf.conf, hc]; simp), hf.conf, hc, sentBits_succ]
      simp only [List.append_assoc, List.singleton_append]
      simp [List.take_append, List.take_take]
    · rw [huQ, hc]
    · rw [hus, hc]
      by_cases h0 : n = 0
      · simp [h0]
      · simp [h0, Nat.testBit_shiftRight, show 1 + (n - 1) = n by omega]

/-- All of CSHIFT: the lines it leaves (R19), and where the bits land (R83). -/
theorem shiftOps_run (value : Word) (a : Nat) (s : State) (h : NoFailure s (3 + 3 * a)) :
    ∃ t, runPins (shiftOps value a) 0 0 s = .completed t 0 ∧ OpsFrame s t (shiftOps value a) ∧
      t.pins = { s.pins with
        latch := .low
        clock := if a = 0 then s.pins.clock else .high
        data := if a = 0 then s.pins.data else levelOf (lightOn value (a - 1)) } ∧
      (s.chain.S.length ≤ s.conf.capacity →
        t.chain.S = (sentBits value.toNat a ++ s.chain.S).take s.conf.capacity) ∧
      t.chain.Q = t.chain.S ∧
      t.chain.seen = { s.chain.seen with
        latch := .low
        clock := if a = 0 then s.chain.seen.clock else .high
        data := if a = 0 then s.chain.seen.data else levelOf (lightOn value (a - 1)) } := by
  have f0 := setSucceeds_frame .latch false (drawAt s 0) s
  have o0 := pinOp_set_ok (line := .latch) (level := false) (h 0 (by omega))
  have p0 := setSucceeds_pins .latch false (drawAt s 0) s
  have c0 := setSucceeds_chain .latch false (drawAt s 0) s
  generalize setSucceeds .latch false (drawAt s 0) s = t0 at f0 o0 p0 c0
  have n0 : NoFailure t0 (3 * a + 2) := noFailure_of_frame f0 (by
    rw [show [PinOp.set Line.latch false].length + (3 * a + 2) = 3 + 3 * a by simp; omega]; exact h)
  have s0 : t0.chain.S = s.chain.S := by rw [c0]; simp [chainReacts]
  obtain ⟨t1, r1, f1, p1, S1, Q1, e1⟩ := shiftIterations_run a value.toNat 1 0 t0 (noFailure_mono n0 (by omega))
  have n1 : NoFailure t1 2 := noFailure_of_frame f1 (by rw [shiftIterations_length]; exact n0)
  have f2 := setSucceeds_frame .latch true (drawAt t1 0) t1
  have o2 := pinOp_set_ok (line := .latch) (level := true) (n1 0 (by omega))
  have p2 := setSucceeds_pins .latch true (drawAt t1 0) t1
  have c2 := setSucceeds_chain .latch true (drawAt t1 0) t1
  generalize setSucceeds .latch true (drawAt t1 0) t1 = t2 at f2 o2 p2 c2
  have n2 : NoFailure t2 1 := noFailure_of_frame f2 n1
  have f3 := setSucceeds_frame .latch false (drawAt t2 0) t2
  have o3 := pinOp_set_ok (line := .latch) (level := false) (n2 0 (by omega))
  have p3 := setSucceeds_pins .latch false (drawAt t2 0) t2
  have c3 := setSucceeds_chain .latch false (drawAt t2 0) t2
  generalize setSucceeds .latch false (drawAt t2 0) t2 = t3 at f3 o3 p3 c3
  have seen1 : t1.chain.seen.latch = .low := by rw [e1, c0]; simp [setLine]
  have S2 : t2.chain.S = t1.chain.S ∧ t2.chain.Q = t1.chain.S := by
    rw [c2]
    simp [chainReacts, chainDriven, risingEdge, lineLevel, seen1, chainEdge]
  have hrun : runPins (shiftOps value a) 0 0 s = .completed t3 0 := by
    rw [shiftOps, runPins_append, runPins_append, runPins_cons_ok _ _ _ o0, runPins_nil]
    simp only [List.length_singleton, Nat.zero_add]
    rw [r1]
    simp only
    rw [runPins_cons_ok _ _ _ o2, runPins_cons_ok _ _ _ o3, runPins_nil]
  refine ⟨t3, hrun, ((f0.trans f1).trans (f2.trans f3)), ?_, ?_, ?_, ?_⟩
  · rw [p3, p2, p1, p0]
    simp [setLine, lightOn]
  · intro hS
    rw [c3]
    simp only [chainReacts, chainSees_S, chainDriven_false]
    rw [S2.1, S1 (by rw [s0, f0.conf]; exact hS), s0, f0.conf]
  · rw [c3]
    simp only [chainReacts, chainSees_S, chainSees_Q, chainDriven_false]
    rw [S2.1, S2.2]
  · rw [c3, chainReacts_seen, c2, chainReacts_seen, e1, c0, chainReacts_seen]
    simp [setLine, lightOn]

end Sys2Proof.Machine
end

