-- ==== Sys2Proof/Laws/Commands.lean ====
section
/-! SUPPORT. Everything an instruction can do, said once, which proofs cite instead of unfolding each meaning. -/

namespace Sys2Proof.Machine

/-- Every instruction is a command that completes with its effect, or a pin event. -/
theorem exec_commit (i : Instr) (s : State) :
    (exec i s = .next (commit (effectOf i s) s) ∧ ∀ line level, i ≠ pinEventOf line level) ∨
    ∃ line level, i = pinEventOf line level ∧ exec i s = .next (pinSet line level s).1 := by
  cases i
  case pinevData l => exact .inr ⟨.data, l, rfl, rfl⟩
  case pinevControl l => exact .inr ⟨.control, l, rfl, rfl⟩
  case pinevClock l => exact .inr ⟨.clock, l, rfl, rfl⟩
  case pinevLatch l => exact .inr ⟨.latch, l, rfl, rfl⟩
  all_goals exact .inl ⟨rfl, fun line level => by cases line <;> simp [pinEventOf]⟩

/-- What an error of codes 1 to 7 of the instruction `i` says (R50, R102). -/
structure ErrorOf (i : Instr) (r : Response) : Prop where
  status : r.status ∈ tableStatuses i
  notOk : r.status ≠ .ok
  notIO : r.status ≠ .backendIO
  result : r.result = 0
  info : r.status ≠ .rangeError → r.infoIndex = 0 ∧ r.infoWidth = 0
  io : r.ioOp = none ∧ r.ioDetail = none

/-- What the instruction `i` writes: nothing, one slot it names, or the configuration. -/
def WriteOf (i : Instr) (s t : State) : Prop :=
  t = s ∨
  (∃ p pat, t = writeSlot s p pat ∧
    ((∃ w on, i = .pnew p w on) ∨ (∃ on, i = .lnewpat p on) ∨
      (((∃ a f, i = .pset p a f) ∨ (∃ a, i = .prol p a) ∨ ∃ a, i = .pror p a) ∧
        ∃ old, readSlot s p = some old ∧ pat.width = old.width))) ∨
  ∃ n, i = .lcfg n ∧ t = { s with cfg := some n }

/-- The pin operations the instruction `i` issues. -/
def OpsOf (i : Instr) (s : State) (ops : List PinOp) : Prop :=
  ((i = .cen ∨ i = .lon) ∧ ops = [.set .control true]) ∨
  ((i = .cdis ∨ i = .loff) ∧ ops = [.set .control false]) ∨
  ((i = .cisen ∨ i = .lison) ∧ ops = [.getControl]) ∨
  ∃ v a, ops = shiftOps v a ∧ (i = .cshift v a ∨ (i = .cwrite v ∧ a = s.conf.capacity) ∨
    ∃ p, i = .lset p ∧ a = s.conf.capacity)

theorem errorOf_errorResponse {i : Instr} {status : Status} (h : status ∈ tableStatuses i) (h1 : status ≠ .ok)
    (h2 : status ≠ .backendIO) : ErrorOf i (errorResponse status) :=
  ⟨h, h1, h2, rfl, fun _ => ⟨rfl, rfl⟩, rfl, rfl⟩

theorem errorOf_rangeResponse {i : Instr} (index width : Nat) (h : Status.rangeError ∈ tableStatuses i) :
    ErrorOf i (rangeResponse index width) :=
  ⟨h, by simp [rangeResponse, errorResponse], by simp [rangeResponse, errorResponse], rfl, fun g => absurd rfl g, rfl, rfl⟩

/-- Everything an effect can be. -/
def EffectOk (i : Instr) (s : State) (e : Effect) : Prop :=
  (∃ r, e = .raises r ∧ ErrorOf i r) ∨
  (∃ t v, e = .writes t v ∧ WriteOf i s t ∧ Status.ok ∈ tableStatuses i ∧ tablePinOps i s.conf = 0 ∧ isChainCommand i = false) ∨
  ∃ ops, e = .pins ops ∧ OpsOf i s ops ∧ Status.ok ∈ tableStatuses i ∧ Status.backendIO ∈ tableStatuses i ∧
    tablePinOps i s.conf = ops.length ∧ isPatternCommand i = false

theorem effectOk_raises {i : Instr} {s : State} {r : Response} (h : ErrorOf i r) : EffectOk i s (.raises r) :=
  .inl ⟨r, rfl, h⟩

theorem effectOk_whenConfigured {i : Instr} {s : State} (rest : Nat → Effect) (h : Status.notConfigured ∈ tableStatuses i)
    (hr : ∀ n, s.cfg = some n → EffectOk i s (rest n)) : EffectOk i s (whenConfigured s rest) := by
  cases hc : s.cfg with
  | none =>
    rw [whenConfigured_none _ hc]
    exact effectOk_raises (errorOf_errorResponse h (by decide) (by decide))
  | some n => rw [whenConfigured_some _ hc]; exact hr n hc

theorem effectOk_whenPattern {i : Instr} {s : State} {p : Slot} (rest : Pattern → Effect)
    (h : Status.noPattern ∈ tableStatuses i)
    (hr : ∀ pat, readSlot s p = some pat → EffectOk i s (rest pat)) : EffectOk i s (whenPattern s p rest) := by
  cases hc : readSlot s p with
  | none =>
    rw [whenPattern_none _ hc]
    exact effectOk_raises (errorOf_errorResponse h (by decide) (by decide))
  | some n => rw [whenPattern_some _ hc]; exact hr n hc

/-- Every command's effect is one of these (R61 to R67, R76 to R80, R90 to R96). -/
theorem effectOf_cases (i : Instr) (s : State) (hi : ∀ line level, i ≠ pinEventOf line level) :
    EffectOk i s (effectOf i s) := by
  cases i
  case pnew p w on =>
    show EffectOk _ s (pnewEffect p w on s)
    unfold pnewEffect
    split
    · exact effectOk_raises (errorOf_errorResponse (by simp [tableStatuses]) (by decide) (by decide))
    · exact .inr (.inl ⟨_, _, rfl, .inr (.inl ⟨p, _, rfl, .inl ⟨w, on, rfl⟩⟩), by simp [tableStatuses], rfl, rfl⟩)
  case pget p a =>
    refine effectOk_whenPattern _ (by simp [tableStatuses]) fun pat hp => ?_
    split
    · exact effectOk_raises (errorOf_rangeResponse _ _ (by simp [tableStatuses]))
    · exact .inr (.inl ⟨_, _, rfl, .inl rfl, by simp [tableStatuses], rfl, rfl⟩)
  case pset p a f =>
    refine effectOk_whenPattern _ (by simp [tableStatuses]) fun pat hp => ?_
    split
    · exact effectOk_raises (errorOf_rangeResponse _ _ (by simp [tableStatuses]))
    · exact .inr (.inl ⟨_, _, rfl, .inr (.inl ⟨p, _, rfl, .inr (.inr ⟨.inl ⟨a, f, rfl⟩, pat, hp, rfl⟩)⟩),
        by simp [tableStatuses], rfl, rfl⟩)
  case prol p a =>
    refine effectOk_whenPattern _ (by simp [tableStatuses]) fun pat hp => ?_
    exact .inr (.inl ⟨_, _, rfl, .inr (.inl ⟨p, _, rfl, .inr (.inr ⟨.inr (.inl ⟨a, rfl⟩), pat, hp, rfl⟩)⟩),
      by simp [tableStatuses], rfl, rfl⟩)
  case pror p a =>
    refine effectOk_whenPattern _ (by simp [tableStatuses]) fun pat hp => ?_
    exact .inr (.inl ⟨_, _, rfl, .inr (.inl ⟨p, _, rfl, .inr (.inr ⟨.inr (.inr ⟨a, rfl⟩), pat, hp, rfl⟩)⟩),
      by simp [tableStatuses], rfl, rfl⟩)
  case praw p =>
    exact effectOk_whenPattern _ (by simp [tableStatuses]) fun pat hp =>
      .inr (.inl ⟨_, _, rfl, .inl rfl, by simp [tableStatuses], rfl, rfl⟩)
  case cen =>
    exact .inr (.inr ⟨_, rfl, .inl ⟨.inl rfl, rfl⟩, by simp [tableStatuses], by simp [tableStatuses], rfl, rfl⟩)
  case cdis =>
    exact .inr (.inr ⟨_, rfl, .inr (.inl ⟨.inl rfl, rfl⟩), by simp [tableStatuses], by simp [tableStatuses], rfl, rfl⟩)
  case cisen =>
    exact .inr (.inr ⟨_, rfl, .inr (.inr (.inl ⟨.inl rfl, rfl⟩)), by simp [tableStatuses], by simp [tableStatuses],
      rfl, rfl⟩)
  case cshift v a =>
    exact .inr (.inr ⟨_, rfl, .inr (.inr (.inr ⟨v, a, rfl, .inl rfl⟩)), by simp [tableStatuses], by simp [tableStatuses],
      (shiftOps_length v a).symm, rfl⟩)
  case cwrite v =>
    exact .inr (.inr ⟨_, rfl, .inr (.inr (.inr ⟨v, _, rfl, .inr (.inl ⟨rfl, rfl⟩)⟩)), by simp [tableStatuses],
      by simp [tableStatuses], (shiftOps_length v s.conf.capacity).symm, rfl⟩)
  case lcfg n =>
    show EffectOk _ s (lcfgEffect n s)
    unfold lcfgEffect
    split
    · exact effectOk_raises (errorOf_errorResponse (by simp [tableStatuses]) (by decide) (by decide))
    · exact .inr (.inl ⟨_, _, rfl, .inr (.inr ⟨n, rfl, rfl⟩), by simp [tableStatuses], rfl, rfl⟩)
  case lnewpat p on =>
    exact effectOk_whenConfigured _ (by simp [tableStatuses]) fun n hn =>
      .inr (.inl ⟨_, _, rfl, .inr (.inl ⟨p, _, rfl, .inr (.inl ⟨on, rfl⟩)⟩), by simp [tableStatuses], rfl, rfl⟩)
  case lset p =>
    refine effectOk_whenConfigured _ (by simp [tableStatuses]) fun n hn =>
      effectOk_whenPattern _ (by simp [tableStatuses]) fun pat hp => ?_
    split
    · exact effectOk_raises (errorOf_errorResponse (by simp [tableStatuses]) (by decide) (by decide))
    · exact .inr (.inr ⟨_, rfl, .inr (.inr (.inr ⟨pat.bits, _, rfl, .inr (.inr ⟨p, rfl, rfl⟩)⟩)),
        by simp [tableStatuses], by simp [tableStatuses], (shiftOps_length pat.bits s.conf.capacity).symm, rfl⟩)
  case lon =>
    exact effectOk_whenConfigured _ (by simp [tableStatuses]) fun n hn =>
      .inr (.inr ⟨_, rfl, .inl ⟨.inr rfl, rfl⟩, by simp [tableStatuses], by simp [tableStatuses], rfl, rfl⟩)
  case loff =>
    exact effectOk_whenConfigured _ (by simp [tableStatuses]) fun n hn =>
      .inr (.inr ⟨_, rfl, .inr (.inl ⟨.inr rfl, rfl⟩), by simp [tableStatuses], by simp [tableStatuses], rfl, rfl⟩)
  case lison =>
    exact effectOk_whenConfigured _ (by simp [tableStatuses]) fun n hn =>
      .inr (.inr ⟨_, rfl, .inr (.inr (.inl ⟨.inr rfl, rfl⟩)), by simp [tableStatuses], by simp [tableStatuses], rfl, rfl⟩)
  case pinevData l => exact absurd rfl (hi .data l)
  case pinevControl l => exact absurd rfl (hi .control l)
  case pinevClock l => exact absurd rfl (hi .clock l)
  case pinevLatch l => exact absurd rfl (hi .latch l)

/-- Everything `exec` can do, said once: a pin event; an error that only responds; a write of a slot or the
configuration; a sequence of pin operations that completes, or that stops at its first failure. -/
theorem exec_cases (i : Instr) (s : State) :
    (∃ line level, i = pinEventOf line level ∧ exec i s = .next (pinSet line level s).1) ∨
    (∃ r, ErrorOf i r ∧ exec i s = .next (respond s r)) ∨
    (∃ t v, WriteOf i s t ∧ Status.ok ∈ tableStatuses i ∧ tablePinOps i s.conf = 0 ∧ isChainCommand i = false ∧
      exec i s = .next (respond t (okResponse v))) ∨
    ∃ ops, OpsOf i s ops ∧ Status.ok ∈ tableStatuses i ∧ Status.backendIO ∈ tableStatuses i ∧
      tablePinOps i s.conf = ops.length ∧ isPatternCommand i = false ∧ exec i s = .next (issueAll ops s) := by
  rcases exec_commit i s with ⟨h, hi⟩ | h
  · rcases effectOf_cases i s hi with ⟨r, he, hr⟩ | ⟨t, v, he, g1, g2, g3, g4⟩ | ⟨ops, he, g1, g2, g3, g4, g5⟩
    · exact .inr (.inl ⟨r, hr, by rw [h, he]; rfl⟩)
    · exact .inr (.inr (.inl ⟨t, v, g1, g2, g3, g4, by rw [h, he]; rfl⟩))
    · exact .inr (.inr (.inr ⟨ops, g1, g2, g3, g4, g5, by rw [h, he]; rfl⟩))
  · exact .inl h

end Sys2Proof.Machine
end

