-- ==== Sys2Proof/Laws/Decode.lean ====
section
/-! SUPPORT. The fields of an encoded command word and of an encoded pin-event byte (30_encoding.md R47, R54). -/

namespace Sys2Proof

/-- Bit `i` of an encoded word comes from the one field that holds it (R47). -/
theorem commandWord_getLsbD (op : Nat) (s : Slot) (f : Bool) (a i : Nat) :
    (commandWord op s f a).getLsbD i =
      (decide (i < 32) && (((decide (16 ≤ i) && a.testBit (i - 16)) || (decide (12 ≤ i) && f.toNat.testBit (i - 12)) ||
        (decide (8 ≤ i) && s.val.testBit (i - 8))) || op.testBit i)) := by
  simp only [commandWord, BitVec.getLsbD_ofNat, Nat.testBit_or, Nat.testBit_shiftLeft, ge_iff_le]

theorem testBit_bool_pos (f : Bool) (j : Nat) (h : j ≠ 0) : f.toNat.testBit j = false :=
  Nat.testBit_lt_two_pow (lt_of_lt_of_le (Bool.toNat_lt f) (by
    calc 2 = 2 ^ 1 := rfl
      _ ≤ 2 ^ j := Nat.pow_le_pow_right (by omega) (by omega)))

theorem testBit_slot_ge (s : Slot) (j : Nat) (h : 4 ≤ j) : s.val.testBit j = false :=
  Nat.testBit_lt_two_pow (lt_of_lt_of_le s.isLt (by
    calc 16 = 2 ^ 4 := rfl
      _ ≤ 2 ^ j := Nat.pow_le_pow_right (by omega) h))

theorem testBit_op_ge (op : Nat) (hop : op < 256) (j : Nat) (h : 8 ≤ j) : op.testBit j = false :=
  Nat.testBit_lt_two_pow (lt_of_lt_of_le hop (by
    calc 256 = 2 ^ 8 := rfl
      _ ≤ 2 ^ j := Nat.pow_le_pow_right (by omega) h))

theorem fieldOp_commandWord (op : Nat) (s : Slot) (f : Bool) (a : Nat) (hop : op < 256) :
    (fieldOp (commandWord op s f a)).toNat = op := by
  have h : fieldOp (commandWord op s f a) = BitVec.ofNat 8 op := by
    refine BitVec.eq_of_getLsbD_eq fun i hi => ?_
    have h1 : ¬ 16 ≤ i := by omega
    have h2 : ¬ 12 ≤ i := by omega
    have h3 : ¬ 8 ≤ i := by omega
    have h4 : i < 32 := by omega
    rw [fieldOp, BitVec.getLsbD_extractLsb', commandWord_getLsbD, BitVec.getLsbD_ofNat]
    simp [h1, h2, h3, h4, hi]
  rw [h, BitVec.toNat_ofNat, Nat.mod_eq_of_lt (by omega)]

theorem fieldS_commandWord (op : Nat) (s : Slot) (f : Bool) (a : Nat) (hop : op < 256) :
    fieldS (commandWord op s f a) = s := by
  have h : (commandWord op s f a).extractLsb' 8 4 = BitVec.ofNat 4 s.val := by
    refine BitVec.eq_of_getLsbD_eq fun i hi => ?_
    have h1 : ¬ 16 ≤ 8 + i := by omega
    have h2 : ¬ 12 ≤ 8 + i := by omega
    have h3 : 8 ≤ 8 + i := by omega
    have h4 : 8 + i < 32 := by omega
    have h5 := testBit_op_ge op hop (8 + i) h3
    rw [BitVec.getLsbD_extractLsb', commandWord_getLsbD, BitVec.getLsbD_ofNat]
    simp [h1, h2, h4, h5, hi]
  apply Fin.ext
  simp only [fieldS, h]
  have := s.isLt
  simp only [BitVec.toFin_ofNat, Fin.val_ofNat]
  omega

theorem fieldF_commandWord (op : Nat) (s : Slot) (f : Bool) (a : Nat) (hop : op < 256) :
    fieldF (commandWord op s f a) = f := by
  have h5 := testBit_op_ge op hop 12 (by omega)
  have h6 := testBit_slot_ge s 4 (by omega)
  rw [fieldF, commandWord_getLsbD]
  cases f <;> simp [h5, h6]

theorem fieldRsv_commandWord (op : Nat) (s : Slot) (f : Bool) (a : Nat) (hop : op < 256) :
    fieldRsv (commandWord op s f a) = 0 := by
  refine BitVec.eq_of_getLsbD_eq fun i hi => ?_
  have h1 : ¬ 16 ≤ 13 + i := by omega
  have h4 : 13 + i < 32 := by omega
  have h5 := testBit_op_ge op hop (13 + i) (by omega)
  have h6 := testBit_slot_ge s (13 + i - 8) (by omega)
  have h7 := testBit_bool_pos f (13 + i - 12) (by omega)
  rw [fieldRsv, BitVec.getLsbD_extractLsb', commandWord_getLsbD]
  simp [h1, h5, h6, h7]

theorem fieldA_commandWord (op : Nat) (s : Slot) (f : Bool) (a : Nat) (hop : op < 256) (ha : a < 65536) :
    fieldA (commandWord op s f a) = a := by
  have h : (commandWord op s f a).extractLsb' 16 16 = BitVec.ofNat 16 a := by
    refine BitVec.eq_of_getLsbD_eq fun i hi => ?_
    have h4 : 16 + i < 32 := by omega
    have h5 := testBit_op_ge op hop (16 + i) (by omega)
    have h6 := testBit_slot_ge s (16 + i - 8) (by omega)
    have h7 := testBit_bool_pos f (16 + i - 12) (by omega)
    rw [BitVec.getLsbD_extractLsb', commandWord_getLsbD, BitVec.getLsbD_ofNat]
    simp [h4, h5, h6, h7, hi]
  rw [fieldA, h, BitVec.toNat_ofNat, Nat.mod_eq_of_lt (by omega)]

theorem pinByte_level (id : Nat) (level : Bool) (h : id < 128) : (pinByte id level).getLsbD 7 = level := by
  have h1 : id.testBit 7 = false := Nat.testBit_lt_two_pow h
  rw [pinByte, BitVec.getLsbD_ofNat, Nat.testBit_or, Nat.testBit_shiftLeft]
  cases level <;> simp [h1]

theorem pinByte_id (id : Nat) (level : Bool) (h : id < 128) :
    ((pinByte id level).extractLsb' 0 7).toNat = id := by
  have h2 : (pinByte id level).extractLsb' 0 7 = BitVec.ofNat 7 id := by
    refine BitVec.eq_of_getLsbD_eq fun i hi => ?_
    have h1 : ¬ 7 ≤ i := by omega
    have h4 : i < 8 := by omega
    rw [pinByte, BitVec.getLsbD_extractLsb', BitVec.getLsbD_ofNat, BitVec.getLsbD_ofNat, Nat.testBit_or,
      Nat.testBit_shiftLeft]
    simp [h1, h4, hi]
  rw [h2, BitVec.toNat_ofNat, Nat.mod_eq_of_lt (by omega)]

end Sys2Proof
end

