-- ==== Sys2Proof/Laws/Invariant.lean ====
section
/-! SUPPORT. The operations keep the invariant (10_state.md R12, R14, R21). -/

namespace Sys2Proof.Machine

theorem inv_respond {s : State} (h : Invariant s) (r : Response) : Invariant (respond s r) :=
  ⟨h.conf, h.slots, h.cfg, h.chain, h.seen⟩

theorem inv_presentFirst {s : State} (h : Invariant s) (r : Request) : Invariant (presentFirst s r) :=
  ⟨h.conf, h.slots, h.cfg, h.chain, h.seen⟩

theorem inv_port {s : State} (h : Invariant s) (port : List Request) : Invariant { s with port := port } :=
  ⟨h.conf, h.slots, h.cfg, h.chain, h.seen⟩

theorem inv_writeSlot {s : State} (h : Invariant s) (p : Slot) {pat : Pattern} (hp : pat.wf) : Invariant (writeSlot s p pat) where
  conf := h.conf
  slots := fun q pat' hq => by
    by_cases e : q = p
    · subst e
      rw [readSlot_writeSlot_same] at hq
      cases hq
      exact hp
    · rw [readSlot_writeSlot_other _ _ _ _ e] at hq
      exact h.slots q pat' hq
  cfg := h.cfg
  chain := h.chain
  seen := h.seen

theorem inv_configure {s : State} (h : Invariant s) {n : Nat} (h1 : 1 ≤ n) (h2 : n ≤ s.conf.capacity) :
    Invariant { s with cfg := some n } where
  conf := h.conf
  slots := h.slots
  cfg := fun m hm => by cases hm; exact ⟨h1, h2⟩
  chain := h.chain
  seen := h.seen

theorem inv_applyReset {s : State} (h : Invariant s) : Invariant (applyReset s) where
  conf := h.conf
  slots := fun q pat hq => by rw [readSlot_applyReset] at hq; cases hq
  cfg := fun m hm => by cases hm
  chain := h.chain
  seen := rfl

theorem inv_construct {c : Conf} (h : c.ok) : Invariant (State.construct c) where
  conf := h
  slots := fun q pat hq => by
    have : readSlot (State.construct c) q = none := by simp [readSlot]
    rw [this] at hq
    cases hq
  cfg := fun m hm => by cases hm
  chain := ⟨List.length_replicate, List.length_replicate⟩
  seen := rfl

theorem inv_setSucceeds {s : State} (h : Invariant s) (line : Line) (level : Bool) (d : Draw) :
    Invariant (setSucceeds line level d s) where
  conf := h.conf
  slots := h.slots
  cfg := h.cfg
  chain := chainDriven_lengths _ line level d.edge s.chain h.chain.1 h.chain.2
  seen := by
    have e : s.chain.seen = s.pins := h.seen
    show (setSucceeds line level d s).chain.seen = (setSucceeds line level d s).pins
    rw [setSucceeds_chain, chainReacts_seen, setSucceeds_pins, e]

theorem inv_setFails {s : State} (h : Invariant s) (line : Line) (level : Bool) (d : Draw) :
    Invariant (setFails line level d s) where
  conf := h.conf
  slots := h.slots
  cfg := h.cfg
  chain := by
    show (chainFails _ line level d.edge d.reacted s.chain).S.length = _ ∧
      (chainFails _ line level d.edge d.reacted s.chain).Q.length = _
    unfold chainFails
    split
    · exact chainDriven_lengths _ line level d.edge s.chain h.chain.1 h.chain.2
    · exact h.chain
  seen := by
    have e : s.chain.seen = s.pins := h.seen
    show (setFails line level d s).chain.seen = (setFails line level d s).pins
    rw [setFails_chain, chainFails_seen, setFails_pins, e]

theorem inv_issueOp {s : State} (h : Invariant s) (op : PinOp) : Invariant (issueOp s op) :=
  ⟨h.conf, h.slots, h.cfg, h.chain, h.seen⟩

theorem inv_pinSet {s : State} (h : Invariant s) (line : Line) (level : Bool) : Invariant (pinSet line level s).1 := by
  rcases pinSet_cases line level s with ⟨-, e⟩ | ⟨_, -, e⟩
  · rw [e]; exact inv_setSucceeds h _ _ _
  · rw [e]; exact inv_setFails h _ _ _

theorem inv_pinOp {s : State} (h : Invariant s) (op : PinOp) : Invariant (pinOp op s).1 := by
  rcases pinOp_cases op s with ⟨-, t, v, e, -, ht⟩ | ⟨_, -, t, e, -, ht⟩ <;> rw [e] <;> cases op
  · rw [ht.1]; exact inv_setSucceeds h _ _ _
  · rw [ht.1]; exact inv_issueOp h _
  · rw [ht]; exact inv_setFails h _ _ _
  · rw [ht]; exact inv_issueOp h _

/-- A sequence of pin operations keeps the invariant, however it ends. -/
theorem inv_runPins {s : State} (h : Invariant s) (ops : List PinOp) (k : Nat) (r : Word) :
    (∀ t v, runPins ops k r s = .completed t v → Invariant t) ∧ ∀ t j e, runPins ops k r s = .failed t j e → Invariant t :=
  runPins_induction ops (fun op _ s t v hs e => by
    have := inv_pinOp hs op
    rw [e] at this
    exact this) k r s h

theorem inv_issueAll {s : State} (h : Invariant s) (ops : List PinOp) : Invariant (issueAll ops s) := by
  rcases issueAll_cases ops s with ⟨-, t, v, e, -, g⟩ | ⟨j, b, -, -, t, e, -, g⟩
  · rw [g]; exact inv_respond ((inv_runPins h ops 0 0).1 t v e) _
  · rw [g]; exact inv_respond ((inv_runPins h ops 0 0).2 t j b e) _

end Sys2Proof.Machine
end

