-- ==== Sys2Proof/Laws/Meanings.lean ====
section
/-! SUPPORT. Each meaning once its checks are decided: what `exec` answers, in the terms of the shared operations. -/

namespace Sys2Proof.Machine

theorem bitWord_eq (b : Bool) : bitWord b = if b then 1 else 0 := by cases b <;> rfl

theorem levelOf_eq (b : Bool) : levelOf b = if b then .high else .low := rfl

/-! ## The Pattern commands on an empty and on a filled slot -/

theorem exec_pget_none {s : State} {p : Slot} {index : Nat} (h : readSlot s p = none) :
    exec (.pget p index) s = .next (respond s (errorResponse .noPattern)) := by
  show Host.Outcome.next (commit (pgetEffect p index s) s) = _
  unfold pgetEffect
  rw [whenPattern_none _ h]
  rfl

theorem exec_pset_none {s : State} {p : Slot} {index : Nat} {value : Bool} (h : readSlot s p = none) :
    exec (.pset p index value) s = .next (respond s (errorResponse .noPattern)) := by
  show Host.Outcome.next (commit (psetEffect p index value s) s) = _
  unfold psetEffect
  rw [whenPattern_none _ h]
  rfl

theorem exec_prol_none {s : State} {p : Slot} {count : Nat} (h : readSlot s p = none) :
    exec (.prol p count) s = .next (respond s (errorResponse .noPattern)) := by
  show Host.Outcome.next (commit (prolEffect p count s) s) = _
  unfold prolEffect
  rw [whenPattern_none _ h]
  rfl

theorem exec_pror_none {s : State} {p : Slot} {count : Nat} (h : readSlot s p = none) :
    exec (.pror p count) s = .next (respond s (errorResponse .noPattern)) := by
  show Host.Outcome.next (commit (prorEffect p count s) s) = _
  unfold prorEffect
  rw [whenPattern_none _ h]
  rfl

theorem exec_praw_none {s : State} {p : Slot} (h : readSlot s p = none) :
    exec (.praw p) s = .next (respond s (errorResponse .noPattern)) := by
  show Host.Outcome.next (commit (prawEffect p s) s) = _
  unfold prawEffect
  rw [whenPattern_none _ h]
  rfl

theorem exec_pget_some {s : State} {p : Slot} {index : Nat} {pat : Pattern} (h : readSlot s p = some pat) :
    exec (.pget p index) s = .next (if index < pat.width
      then respond s (okResponse (bitWord (lightOn pat.bits index)))
      else respond s (rangeResponse index pat.width)) := by
  show Host.Outcome.next (commit (pgetEffect p index s) s) = _
  unfold pgetEffect
  rw [whenPattern_some _ h]
  by_cases hi : index < pat.width
  · rw [if_neg (by omega), if_pos hi]
    rfl
  · rw [if_pos (by omega), if_neg hi]
    rfl

theorem exec_pset_some {s : State} {p : Slot} {index : Nat} {value : Bool} {pat : Pattern}
    (h : readSlot s p = some pat) :
    exec (.pset p index value) s = .next (if index < pat.width
      then respond (writeSlot s p { pat with bits := setLight pat index value }) (okResponse 0)
      else respond s (rangeResponse index pat.width)) := by
  show Host.Outcome.next (commit (psetEffect p index value s) s) = _
  unfold psetEffect
  rw [whenPattern_some _ h]
  by_cases hi : index < pat.width
  · rw [if_neg (by omega), if_pos hi]
    rfl
  · rw [if_pos (by omega), if_neg hi]
    rfl

theorem exec_prol_some {s : State} {p : Slot} {count : Nat} {pat : Pattern} (h : readSlot s p = some pat) :
    exec (.prol p count) s =
      .next (respond (writeSlot s p { pat with bits := rotateLeft pat count }) (okResponse 0)) := by
  show Host.Outcome.next (commit (prolEffect p count s) s) = _
  unfold prolEffect
  rw [whenPattern_some _ h]
  rfl

theorem exec_pror_some {s : State} {p : Slot} {count : Nat} {pat : Pattern} (h : readSlot s p = some pat) :
    exec (.pror p count) s =
      .next (respond (writeSlot s p { pat with bits := rotateRight pat count }) (okResponse 0)) := by
  show Host.Outcome.next (commit (prorEffect p count s) s) = _
  unfold prorEffect
  rw [whenPattern_some _ h]
  rfl

theorem exec_praw_some {s : State} {p : Slot} {pat : Pattern} (h : readSlot s p = some pat) :
    exec (.praw p) s = .next (respond s (okResponse pat.bits)) := by
  show Host.Outcome.next (commit (prawEffect p s) s) = _
  unfold prawEffect
  rw [whenPattern_some _ h]
  rfl

/-- What a slot write with its response leaves. -/
theorem writeSlot_respond (s : State) (p : Slot) (pat : Pattern) (r : Response) :
    readSlot (respond (writeSlot s p pat) r) p = some pat ∧ Responded s (respond (writeSlot s p pat) r) r ∧
    OtherSlots s (respond (writeSlot s p pat) r) p ∧ (respond (writeSlot s p pat) r).cfg = s.cfg ∧
    SamePins s (respond (writeSlot s p pat) r) ∧ SameInputs s (respond (writeSlot s p pat) r) :=
  ⟨by rw [readSlot_respond, readSlot_writeSlot_same], rfl,
    fun q hq => by rw [readSlot_respond, readSlot_writeSlot_other _ _ _ _ hq], rfl, ⟨rfl, rfl, rfl, rfl, rfl⟩, rfl, rfl⟩

/-! ## The Chain commands -/

/-- A CSHIFT without a failure. -/
theorem exec_cshift_ok {s : State} {value : Word} {a : Nat} (h : NoFailure s (3 + 3 * a)) :
    ∃ t, exec (.cshift value a) s = .next (respond t (okResponse 0)) ∧ OpsFrame s t (shiftOps value a) ∧
      t.pins = { s.pins with
        latch := .low
        clock := if a = 0 then s.pins.clock else .high
        data := if a = 0 then s.pins.data else levelOf (lightOn value (a - 1)) } ∧
      (s.chain.S.length ≤ s.conf.capacity →
        t.chain.S = (sentBits value.toNat a ++ s.chain.S).take s.conf.capacity) ∧
      t.chain.Q = t.chain.S := by
  obtain ⟨t, hr, hf, hp, hS, hQ, -⟩ := shiftOps_run value a s h
  refine ⟨t, ?_, hf, hp, hS, hQ⟩
  show Host.Outcome.next (issueAll (shiftOps value a) s) = _
  rw [issueAll_completed hr]

/-! ## LSET -/

theorem exec_lset_match {s : State} {p : Slot} {pat : Pattern} (hc : s.cfg = some pat.width)
    (hs : readSlot s p = some pat) : exec (.lset p) s = exec (.cwrite pat.bits) s := by
  show Host.Outcome.next (commit (lsetEffect p s) s) = _
  unfold lsetEffect
  rw [whenConfigured_some _ hc, whenPattern_some _ hs, if_neg (by simp)]
  rfl

end Sys2Proof.Machine
end

