-- ==== Sys2Proof/Laws/PerInstr.lean ====
section
/-! SUPPORT. Facts about each instruction's encoding, one lemma a constructor (30_encoding.md R47, R51, R54, R55). -/

namespace Sys2Proof.Laws.EncodedForm

/-- The opcode of a command; a pin event has none. -/
def opcode : Instr → Option Nat
  | .pnew _ _ _ => some 0x10
  | .pget _ _ => some 0x11
  | .pset _ _ _ => some 0x12
  | .prol _ _ => some 0x13
  | .pror _ _ => some 0x14
  | .praw _ => some 0x15
  | .cen => some 0x20
  | .cdis => some 0x21
  | .cisen => some 0x22
  | .cshift _ _ => some 0x23
  | .cwrite _ => some 0x24
  | .lcfg _ => some 0x30
  | .lnewpat _ _ => some 0x31
  | .lset _ => some 0x32
  | .lon => some 0x33
  | .loff => some 0x34
  | .lison => some 0x35
  | .pinevData _ => none
  | .pinevControl _ => none
  | .pinevClock _ => none
  | .pinevLatch _ => none

/-- A command's encoding has its opcode in `op` and 0 in `rsv`; a pin event's encoding is a byte with an identifier from
1 to 4. -/
def Statement (i : Instr) : Prop :=
  match encode i with
  | .command cmd _ => opcode i = some (fieldOp cmd).toNat ∧ fieldRsv cmd = 0
  | .pinEvent byte => opcode i = none ∧ 1 ≤ (byte.extractLsb' 0 7).toNat ∧ (byte.extractLsb' 0 7).toNat ≤ 4
  | .reset => False
  | .commandReset _ _ _ => False

theorem command_form {op : Nat} {i : Instr} (s : Slot) (f : Bool) (a : Nat) (hop : op < 256) (h : opcode i = some op) :
    opcode i = some (fieldOp (commandWord op s f a)).toNat ∧ fieldRsv (commandWord op s f a) = 0 :=
  ⟨by rw [fieldOp_commandWord op s f a hop, h], fieldRsv_commandWord op s f a hop⟩

theorem pin_form {i : Instr} (id : Nat) (level : Bool) (h1 : 1 ≤ id) (h4 : id ≤ 4) (h : opcode i = none) :
    opcode i = none ∧ 1 ≤ ((pinByte id level).extractLsb' 0 7).toNat ∧
      ((pinByte id level).extractLsb' 0 7).toNat ≤ 4 := by
  rw [pinByte_id id level (by omega)]
  exact ⟨h, h1, h4⟩

theorem pnew (p : Slot) (width : Nat) (on : Bool) : Statement (.pnew p width on) :=
  command_form _ _ _ (by decide) rfl
theorem pget (p : Slot) (index : Nat) : Statement (.pget p index) := command_form _ _ _ (by decide) rfl
theorem pset (p : Slot) (index : Nat) (value : Bool) : Statement (.pset p index value) :=
  command_form _ _ _ (by decide) rfl
theorem prol (p : Slot) (count : Nat) : Statement (.prol p count) := command_form _ _ _ (by decide) rfl
theorem pror (p : Slot) (count : Nat) : Statement (.pror p count) := command_form _ _ _ (by decide) rfl
theorem praw (p : Slot) : Statement (.praw p) := command_form _ _ _ (by decide) rfl
theorem cen : Statement .cen := command_form _ _ _ (by decide) rfl
theorem cdis : Statement .cdis := command_form _ _ _ (by decide) rfl
theorem cisen : Statement .cisen := command_form _ _ _ (by decide) rfl
theorem cshift (value : Word) (count : Nat) : Statement (.cshift value count) := command_form _ _ _ (by decide) rfl
theorem cwrite (value : Word) : Statement (.cwrite value) := command_form _ _ _ (by decide) rfl
theorem lcfg (lightCount : Nat) : Statement (.lcfg lightCount) := command_form _ _ _ (by decide) rfl
theorem lnewpat (p : Slot) (on : Bool) : Statement (.lnewpat p on) := command_form _ _ _ (by decide) rfl
theorem lset (p : Slot) : Statement (.lset p) := command_form _ _ _ (by decide) rfl
theorem lon : Statement .lon := command_form _ _ _ (by decide) rfl
theorem loff : Statement .loff := command_form _ _ _ (by decide) rfl
theorem lison : Statement .lison := command_form _ _ _ (by decide) rfl
theorem pinevData (level : Bool) : Statement (.pinevData level) := pin_form _ _ (by decide) (by decide) rfl
theorem pinevControl (level : Bool) : Statement (.pinevControl level) := pin_form _ _ (by decide) (by decide) rfl
theorem pinevClock (level : Bool) : Statement (.pinevClock level) := pin_form _ _ (by decide) (by decide) rfl
theorem pinevLatch (level : Bool) : Statement (.pinevLatch level) := pin_form _ _ (by decide) (by decide) rfl

end Sys2Proof.Laws.EncodedForm
end

