-- ==== Sys2Proof/Laws/Runs.lean ====
section
/-! SUPPORT. Sequences of pin operations: what every operation keeps the sequence keeps; one operation alone; the lines
whose edges move the device; parts of the state a sequence does not read. -/

namespace Sys2Proof.Machine

/-! ## What a sequence keeps -/

/-- What every reaction to an operation keeps, the operation keeps. -/
theorem pinOp_keeps {P : State → Prop} (op : PinOp) (s t : State) (v : Except BackendError Word) (hP : P s)
    (ok : ∀ s line level d, op = .set line level → P s → P (setSucceeds line level d s))
    (failed : ∀ s line level d, op = .set line level → P s → P (setFails line level d s))
    (get : ∀ s, P s → P (issueOp s .getControl)) (h : pinOp op s = (t, v)) : P t := by
  rcases pinOp_cases op s with ⟨-, t', v', e, -, g⟩ | ⟨e', -, t', e, -, g⟩
  · rw [e] at h
    cases h
    cases op with
    | set line level => rw [g.1]; exact ok _ _ _ _ rfl hP
    | getControl => rw [g.1]; exact get _ hP
  · rw [e] at h
    cases h
    cases op with
    | set line level => simp only at g; rw [g]; exact failed _ _ _ _ rfl hP
    | getControl => simp only at g; rw [g]; exact get _ hP

/-- What every reaction to the operations of a command keeps, the command keeps. -/
theorem issueAll_keeps {P : State → Prop} (ops : List PinOp) (s : State) (hP : P s) (hr : ∀ s r, P s → P (respond s r))
    (ok : ∀ s line level d, .set line level ∈ ops → P s → P (setSucceeds line level d s))
    (failed : ∀ s line level d, .set line level ∈ ops → P s → P (setFails line level d s))
    (get : ∀ s, P s → P (issueOp s .getControl)) : P (issueAll ops s) := by
  have := runPins_induction (P := P) ops (fun op hop s t v hs e =>
    pinOp_keeps op s t v hs (fun s l b d he => ok s l b d (he ▸ hop)) (fun s l b d he => failed s l b d (he ▸ hop))
      get e) 0 0 s hP
  rcases issueAll_cases ops s with ⟨-, t, v, h, -, e⟩ | ⟨j, b, -, -, t, h, -, e⟩ <;> rw [e]
  · exact hr _ _ (this.1 _ _ h)
  · exact hr _ _ (this.2 _ _ _ h)

theorem issueAll_store (ops : List PinOp) (s : State) :
    SameStore s (issueAll ops s) ∧ SameInputs s (issueAll ops s) := by
  rcases issueAll_cases ops s with ⟨-, t, v, -, hf, e⟩ | ⟨j, b, -, -, t, -, hf, e⟩ <;> rw [e]
  · exact ⟨⟨hf.slots, hf.cfg⟩, hf.conf, hf.port⟩
  · exact ⟨⟨hf.slots, hf.cfg⟩, hf.conf, hf.port⟩

/-- A sequence that stops at the operation `j` does the same when no operation follows it. -/
theorem runPins_take {ops : List PinOp} {k j : Nat} {r : Word} {s t : State} {e : BackendError}
    (h : runPins ops k r s = .failed t (k + j) e) : runPins (ops.take (j + 1)) k r s = .failed t (k + j) e := by
  have h0 := h
  rw [← List.take_append_drop (j + 1) ops, runPins_append] at h
  split at h
  · rename_i u w hu
    rcases runPins_cases (ops.drop (j + 1)) (k + (ops.take (j + 1)).length) w u with
      ⟨-, t', v', e', -⟩ | ⟨j', b, hj', -, t', e', -⟩
    · rw [e'] at h
      cases h
    · rw [e'] at h
      injection h with h1 h2 h3
      rw [List.length_drop] at hj'
      rw [List.length_take] at h2
      omega
  · rename_i hu
    rw [hu]
    exact h

/-! ## One operation alone -/

theorem issueAll_set_ok {s : State} {line : Line} {level : Bool} (h : NoFailure s 1) :
    issueAll [.set line level] s = respond (setSucceeds line level (drawAt s 0) s) (okResponse 0) :=
  issueAll_completed (by rw [runPins_cons_ok _ _ _ (pinOp_set_ok (h 0 (by omega)))]; rfl)

theorem issueAll_set_failed {s : State} {line : Line} {level : Bool} {e : BackendError} (h : FirstFailure s 0 e) :
    issueAll [.set line level] s = respond (setFails line level (drawAt s 0) s) (backendResponse 0 e) :=
  issueAll_failed (by rw [runPins_cons_failed _ _ _ (pinOp_set_failed h.2)])

theorem issueAll_get_ok {s : State} (h : NoFailure s 1) :
    issueAll [.getControl] s = respond (issueOp s .getControl)
      (okResponse (bitWord (ctlReadback s.conf.readback s.pins.control (drawAt s 0).sensed))) :=
  issueAll_completed (by rw [runPins_cons_ok _ _ _ (pinOp_get_ok (h 0 (by omega)))]; rfl)

theorem issueAll_get_failed {s : State} {e : BackendError} (h : FirstFailure s 0 e) :
    issueAll [.getControl] s = respond (issueOp s .getControl) (backendResponse 0 e) :=
  issueAll_failed (by rw [runPins_cons_failed _ _ _ (pinOp_get_failed h.2)])

/-! ## The lines whose edges move the device -/

theorem chainDriven_Q {n : Nat} {line : Line} {level edge : Bool} {c : Chain} (h : line ≠ .latch ∨ level = false) :
    (chainDriven n line level edge c).Q = c.Q := by
  unfold chainDriven
  split
  · cases line <;> simp_all [chainEdge, risingEdge]
  · rfl

theorem chainDriven_S {n : Nat} {line : Line} {level edge : Bool} {c : Chain} (h : line ≠ .clock ∨ level = false) :
    (chainDriven n line level edge c).S = c.S := by
  unfold chainDriven
  split
  · cases line <;> simp_all [chainEdge, risingEdge]
  · rfl

theorem chainFails_Q {n : Nat} {line : Line} {level edge reacted : Bool} {c : Chain}
    (h : line ≠ .latch ∨ level = false) : (chainFails n line level edge reacted c).Q = c.Q := by
  unfold chainFails
  split
  · simp [chainDriven_Q h]
  · rfl

theorem chainFails_S {n : Nat} {line : Line} {level edge reacted : Bool} {c : Chain}
    (h : line ≠ .clock ∨ level = false) : (chainFails n line level edge reacted c).S = c.S := by
  unfold chainFails
  split
  · simp [chainDriven_S h]
  · rfl

theorem chainShift_first {n : Nat} {c : Chain} (h : 0 < n) : (chainShift n c).S[0]? = some c.seen.data := by
  simp [h]

theorem chainShift_next {n k : Nat} {c : Chain} (h1 : 1 ≤ k) (h : k < n) : (chainShift n c).S[k]? = c.S[k - 1]? := by
  obtain ⟨j, rfl⟩ : ∃ j, k = j + 1 := ⟨k - 1, by omega⟩
  simp [h]

/-! ## Parts of the state that a sequence does not read -/

/-- A change of the state applied to what a sequence leaves. -/
def PinRun.map (f : State → State) : PinRun → PinRun
  | .completed t v => .completed (f t) v
  | .failed t k e => .failed (f t) k e

/-- A change of the state that one operation does not notice, a sequence does not notice. -/
theorem runPins_map (f : State → State) (hf : ∀ op s, pinOp op (f s) = (f (pinOp op s).1, (pinOp op s).2))
    (ops : List PinOp) (k : Nat) (r : Word) (s : State) : runPins ops k r (f s) = (runPins ops k r s).map f := by
  induction ops generalizing k r s with
  | nil => rfl
  | cons op ops ih =>
    rcases pinOp_cases op s with ⟨-, t, v, h, -⟩ | ⟨e, -, t, h, -⟩
    · have h' : pinOp op (f s) = (f t, .ok v) := by rw [hf, h]
      rw [runPins_cons_ok _ _ _ h, runPins_cons_ok _ _ _ h', ih]
    · have h' : pinOp op (f s) = (f t, .error e) := by rw [hf, h]
      rw [runPins_cons_failed _ _ _ h, runPins_cons_failed _ _ _ h']
      rfl

theorem pinOp_withStore (slots : Vector (Option Pattern) 16) (cfg : Option Nat) (op : PinOp) (s : State) :
    pinOp op { s with slots := slots, cfg := cfg } =
      ({ (pinOp op s).1 with slots := slots, cfg := cfg }, (pinOp op s).2) := by
  cases op with
  | set line level =>
    cases h : (drawAt s 0).io with
    | ok => rw [pinOp_set_ok h, pinOp_set_ok (s := { s with slots := slots, cfg := cfg }) h]; rfl
    | failed e => rw [pinOp_set_failed h, pinOp_set_failed (s := { s with slots := slots, cfg := cfg }) h]; rfl
  | getControl =>
    cases h : (drawAt s 0).io with
    | ok => rw [pinOp_get_ok h, pinOp_get_ok (s := { s with slots := slots, cfg := cfg }) h]; rfl
    | failed e => rw [pinOp_get_failed h, pinOp_get_failed (s := { s with slots := slots, cfg := cfg }) h]; rfl

theorem pinOp_withPort (port : List Request) (op : PinOp) (s : State) :
    pinOp op { s with port := port } = ({ (pinOp op s).1 with port := port }, (pinOp op s).2) := by
  cases op with
  | set line level =>
    cases h : (drawAt s 0).io with
    | ok => rw [pinOp_set_ok h, pinOp_set_ok (s := { s with port := port }) h]; rfl
    | failed e => rw [pinOp_set_failed h, pinOp_set_failed (s := { s with port := port }) h]; rfl
  | getControl =>
    cases h : (drawAt s 0).io with
    | ok => rw [pinOp_get_ok h, pinOp_get_ok (s := { s with port := port }) h]; rfl
    | failed e => rw [pinOp_get_failed h, pinOp_get_failed (s := { s with port := port }) h]; rfl

end Sys2Proof.Machine
end

