-- ==== Sys2Proof/Tests/Slice0.lean ====
section
/-! SUPPORT. Tests, each from a vector of spec/95_test_vectors.md or a worked example of a rule, and a witness for the
premises of every statement. -/

namespace Sys2Proof.Tests

open Sys2Proof Sys2Proof.Machine

/-! ## Small states -/

/-- After reset, with `n` chips and the loopback readback; the next pin operations are answered by `d`. -/
def board (n : Nat) (d : List Draw) : State :=
  { State.construct { chipCount := n, readback := .loopback } with draws := d }

/-- A state with one slot filled. -/
def slotted (p : Slot) (width : Nat) (bits : Word) (s : State) : State := writeSlot s p { width := width, bits := bits }

/-- A state with the array configured. -/
def configured (n : Nat) (s : State) : State := { s with cfg := some n }

/-- A state with the chain's registers given, stage 0 first. -/
def loaded (S Q : List Level) (s : State) : State := { s with chain := { s.chain with S := S, Q := Q } }

/-- A state in which a line is at a level, to the block and to the device. -/
def driven (line : Line) (level : Level) (s : State) : State :=
  { s with pins := setLine s.pins line level, chain := chainSees s.chain line level }

/-- Levels from bits. -/
def levels (bits : List Nat) : List Level := bits.map fun b => levelOf (b == 1)

/-- The next state, if there is one. -/
def after (i : Instr) (s : State) : Option State :=
  match exec i s with
  | .next t => some t
  | .fault _ => none
  | .refused _ => none

/-- The slot after one instruction. -/
def slotAfter (i : Instr) (p : Slot) (s : State) : Option (Option Pattern) := (after i s).map fun t => readSlot t p

/-- The responses after one instruction. -/
def said (i : Instr) (s : State) : Option (List Response) := (after i s).map fun t => t.responses

/-- The bytes on the wire after one instruction. -/
def sent (i : Instr) (s : State) : Option (List PinByte) := (after i s).map fun t => wireBytes t.trace

/-- The chain's registers after one instruction. -/
def chainAfter (i : Instr) (s : State) : Option (List Level × List Level) :=
  (after i s).map fun t => (t.chain.S, t.chain.Q)

/-! ## Well-formedness: an ill-formed instruction for each operand that is checked -/

theorem test_wf_pnew : (Instr.pnew 0 65535 true).wf = true ∧ (Instr.pnew 0 65536 true).wf = false := by decide
theorem test_wf_pget : (Instr.pget 0 65535).wf = true ∧ (Instr.pget 0 65536).wf = false := by decide
theorem test_wf_pset : (Instr.pset 0 65535 true).wf = true ∧ (Instr.pset 0 65536 true).wf = false := by decide
theorem test_wf_prol : (Instr.prol 0 65535).wf = true ∧ (Instr.prol 0 65536).wf = false := by decide
theorem test_wf_pror : (Instr.pror 0 65535).wf = true ∧ (Instr.pror 0 65536).wf = false := by decide
theorem test_wf_cshift : (Instr.cshift 0 65535).wf = true ∧ (Instr.cshift 0 65536).wf = false := by decide
theorem test_wf_lcfg : (Instr.lcfg 65535).wf = true ∧ (Instr.lcfg 65536).wf = false := by decide

/-! ## Decoding: a word written out from R47 or R54 for every constructor (vectors V-D1 to V-D10 and section 2) -/

theorem test_decode_pnew : decodeCommand 0x00051110 0 = .ok (.pnew 1 5 true) := by decide
theorem test_decode_pget : decodeCommand 0x00070011 0 = .ok (.pget 0 7) := by decide
theorem test_decode_pset : decodeCommand 0x003F1212 0 = .ok (.pset 2 63 true) := by decide
theorem test_decode_prol : decodeCommand 0x00020113 0 = .ok (.prol 1 2) := by decide
theorem test_decode_pror : decodeCommand 0x00070114 0 = .ok (.pror 1 7) := by decide
theorem test_decode_praw : decodeCommand 0x00000515 0 = .ok (.praw 5) := by decide
theorem test_decode_cen : decodeCommand 0xFFFF1F20 0 = .ok .cen := by decide
theorem test_decode_cdis : decodeCommand 0x00000021 0 = .ok .cdis := by decide
theorem test_decode_cisen : decodeCommand 0x00000022 0 = .ok .cisen := by decide
theorem test_decode_cshift : decodeCommand 0x00030023 5 = .ok (.cshift 5 3) := by decide
theorem test_decode_cwrite : decodeCommand 0x00001024 0xB2 = .ok (.cwrite 0xB2) := by decide
theorem test_decode_lcfg : decodeCommand 0x00090030 0 = .ok (.lcfg 9) := by decide
theorem test_decode_lnewpat : decodeCommand 0x00001231 0 = .ok (.lnewpat 2 true) := by decide
theorem test_decode_lset : decodeCommand 0x00000232 0 = .ok (.lset 2) := by decide
theorem test_decode_lon : decodeCommand 0x00000033 0 = .ok .lon := by decide
theorem test_decode_loff : decodeCommand 0x00000034 0 = .ok .loff := by decide
theorem test_decode_lison : decodeCommand 0x00000035 0 = .ok .lison := by decide
theorem test_decode_pinevData : decodePinEvent 0b10000001 = .ok (.pinevData true) := by decide
theorem test_decode_pinevControl : decodePinEvent 0b00000010 = .ok (.pinevControl false) := by decide
theorem test_decode_pinevClock : decodePinEvent 0b10000011 = .ok (.pinevClock true) := by decide
theorem test_decode_pinevLatch : decodePinEvent 0b00000100 = .ok (.pinevLatch false) := by decide

theorem test_decode_illegal :
    (decodeCommand 0x00000000 0 = .error .reservedOpcode ∧ decodeCommand 0x00000016 0 = .error .reservedOpcode ∧
      decodeCommand 0x000800FF 0 = .error .reservedOpcode) ∧
    decodeCommand 0x00002010 0 = .error .reservedBits ∧ decodeCommand 0x0000E020 0 = .error .reservedBits := by decide

theorem test_encode_words :
    encode (.pset 2 63 true) = .command 0x003F1212 0 ∧ encode (.cshift 5 3) = .command 0x00030023 5 ∧
    encode (.pinevClock true) = .pinEvent 0x83 := by decide

/-! ## The Pattern commands -/

/-- V-P1, V-P2. -/
theorem test_pnew_width :
    said (.pnew 3 0 true) (board 1 []) = some [errorResponse .invalidWidth] ∧
    said (.pnew 3 65 true) (board 1 []) = some [errorResponse .invalidWidth] := by decide
/-- V-P4, V-P14. -/
theorem test_pnew_bits :
    slotAfter (.pnew 5 64 true) 5 (board 1 []) = some (some { width := 64, bits := 0xFFFFFFFFFFFFFFFF }) ∧
    slotAfter (.pnew 0 4 true) 0 (slotted 0 8 0x80 (board 1 [])) = some (some { width := 4, bits := 0xF }) := by decide
/-- V-P13, V-S8. -/
theorem test_pget :
    said (.pget 0 7) (slotted 0 8 0x80 (board 1 [])) = some [okResponse 1] ∧
    said (.pget 0 8) (slotted 0 8 0x80 (board 1 [])) = some
      [{ status := .rangeError, result := 0, infoIndex := 8, infoWidth := 8, ioOp := none, ioDetail := none }] := by
  decide
/-- V-S3, V-S5. -/
theorem test_pset :
    slotAfter (.pset 6 7 false) 6 (slotted 6 8 0x81 (board 1 [])) = some (some { width := 8, bits := 0x01 }) ∧
    slotAfter (.pset 0 7 true) 0 (slotted 0 8 0 (board 1 [])) = some (some { width := 8, bits := 128 }) := by decide
/-- V-P8, V-S11. -/
theorem test_prol :
    slotAfter (.prol 2 1) 2 (slotted 2 64 0x8000000000000001 (board 1 [])) = some (some { width := 64, bits := 3 }) ∧
    slotAfter (.prol 1 7) 1 (slotted 1 5 0b10110 (board 1 [])) = some (some { width := 5, bits := 0b11010 }) := by decide
/-- V-P9, V-P11. -/
theorem test_pror :
    slotAfter (.pror 2 2) 2 (slotted 2 64 3 (board 1 [])) = some (some { width := 64, bits := 0xC000000000000000 }) ∧
    slotAfter (.pror 1 7) 1 (slotted 1 5 0b10110 (board 1 [])) = some (some { width := 5, bits := 0b10101 }) := by decide
/-- V-P3, V-S5. -/
theorem test_praw :
    said (.praw 3) (board 1 []) = some [errorResponse .noPattern] ∧
    said (.praw 0) (slotted 0 8 128 (board 1 [])) = some [okResponse 128] := by decide
/-- V-P15, V-P16. -/
theorem test_render :
    render (slotted 0 8 1 (board 1 [])) 0 = some "00000001" ∧
    render (slotted 0 5 0b10110 (board 1 [])) 0 = some "10110" := by decide

/-! ## The Chain commands -/

/-- V-C10: issued although the line is high already. -/
theorem test_cen :
    sent .cen (driven .control .high (board 1 (succeeding 1 false))) = some [0x82] ∧
    said .cen (board 1 (succeeding 1 false)) = some [okResponse 0] := by decide
/-- V-C11. -/
theorem test_cdis :
    (after .cdis (loaded (levels [1, 1, 1, 1, 1, 1, 1, 1]) (levels [1, 0, 1, 0, 1, 0, 1, 0])
      (driven .control .high (board 1 (succeeding 1 false))))).map
        (fun t => (wireBytes t.trace, t.pins.control, visible t 0, t.chain.Q)) =
      some ([0x02], .low, [.blank], levels [1, 0, 1, 0, 1, 0, 1, 0]) := by decide
/-- V-C8, V-C9. -/
theorem test_cisen :
    said .cisen (driven .control .high (board 1 (succeeding 1 false))) = some [okResponse 1] ∧
    said .cisen (board 1 (succeeding 1 true)) = some [okResponse 0] := by decide
/-- V-C13. -/
theorem test_cisen_failed :
    said .cisen (board 1 [failing ⟨7⟩ true]) = some
      [{ status := .backendIO, result := 0, infoIndex := 0, infoWidth := 0, ioOp := some 0, ioDetail := some ⟨7⟩ }] := by
  decide
/-- V-C2, the trace. -/
theorem test_cshift_trace :
    sent (.cshift 5 3) (board 1 (succeeding 12 false)) = some
      [0x04, 0x03, 0x81, 0x83, 0x03, 0x01, 0x83, 0x03, 0x81, 0x83, 0x84, 0x04] := by decide
/-- V-C2, the chain. -/
theorem test_cshift_chain :
    chainAfter (.cshift 5 3) (loaded (levels [1, 1, 1, 1, 1, 1, 1, 1]) (levels [1, 1, 1, 1, 1, 1, 1, 1])
      (board 1 (succeeding 12 false))) =
      some (levels [1, 0, 1, 1, 1, 1, 1, 1], levels [1, 0, 1, 1, 1, 1, 1, 1]) := by decide
/-- V-S6. -/
theorem test_cwrite :
    chainAfter (.cwrite 0xB2) (board 1 (succeeding 27 false)) =
      some (levels [1, 0, 1, 1, 0, 0, 1, 0], levels [1, 0, 1, 1, 0, 0, 1, 0]) := by decide
/-- V-C12: the sixth operation fails and the device did not react. -/
theorem test_cwrite_failed :
    (after (.cwrite 0) (loaded (levels [1, 1, 1, 1, 1, 1, 1, 1]) (levels [1, 1, 1, 1, 1, 1, 1, 1])
      (driven .clock .high (board 1 (succeeding 5 false ++ [failing ⟨7⟩ false]))))).map
        (fun t => (wireBytes t.trace, t.chain.S, t.chain.Q, t.pins.data, t.pins.clock, t.pins.latch)) =
      some ([0x04, 0x03, 0x01, 0x83, 0x03, 0x01], levels [0, 1, 1, 1, 1, 1, 1, 1], levels [1, 1, 1, 1, 1, 1, 1, 1],
        .x, .low, .low) := by decide

/-! ## The LightArray commands -/

/-- V-L2, V-L4. -/
theorem test_lcfg :
    ((after (.lcfg 9) (configured 8 (board 1 []))).map fun t => (t.cfg, t.responses, t.trace)) =
      some (some 8, [errorResponse .configurationError], []) ∧
    ((after (.lcfg 16) (board 2 [])).map fun t => t.cfg) = some (some 16) := by decide
/-- V-L6, V-L7. -/
theorem test_lnewpat :
    slotAfter (.lnewpat 2 false) 2 (configured 5 (board 1 [])) = some (some { width := 5, bits := 0 }) ∧
    slotAfter (.lnewpat 2 true) 2 (configured 5 (board 1 [])) = some (some { width := 5, bits := 0b11111 }) := by decide
/-- V-L8. -/
theorem test_lset :
    chainAfter (.lset 2) (slotted 2 5 0b10110 (configured 5 (board 1 (succeeding 27 false)))) =
      some (levels [0, 0, 0, 1, 0, 1, 1, 0], levels [0, 0, 0, 1, 0, 1, 1, 0]) := by decide
/-- V-L9, V-L10, V-L11. -/
theorem test_lset_errors :
    said (.lset 0) (slotted 0 8 0 (configured 4 (board 1 []))) = some [errorResponse .widthMismatch] ∧
    said (.lset 1) (configured 4 (board 1 [])) = some [errorResponse .noPattern] ∧
    said (.lset 1) (board 1 []) = some [errorResponse .notConfigured] := by decide
/-- V-L5, and P1 step 4. -/
theorem test_lon :
    said .lon (board 1 []) = some [errorResponse .notConfigured] ∧
    sent .lon (configured 8 (board 1 (succeeding 1 false))) = some [0x82] := by decide
/-- V-L14. -/
theorem test_loff :
    ((after .loff (configured 8 (driven .control .high (board 1 (succeeding 1 false))))).map
      fun t => (wireBytes t.trace, t.pins.control)) = some ([0x02], .low) := by decide
/-- V-L13. -/
theorem test_lison :
    said .lison (configured 8 (driven .control .high (board 1 (succeeding 1 false)))) = some [okResponse 1] := by decide

/-! ## Pin events -/

/-- R110. -/
theorem test_pinevData :
    ((after (.pinevData true) (board 1 (succeeding 1 false))).map fun t => (t.pins.data, t.chain.seen.data, t.responses)) =
      some (.high, .high, []) := by decide
/-- R110. -/
theorem test_pinevControl :
    ((after (.pinevControl true) (board 1 (succeeding 1 false))).map fun t => (t.pins.control, wireBytes t.trace)) =
      some (.high, [0x82]) := by decide
/-- V-X1, V-X2. -/
theorem test_pinevClock :
    ((after (.pinevClock true) (driven .data .high (loaded (levels [0, 0, 0, 0, 0, 0, 0, 0]) (levels [])
      (board 1 (succeeding 1 false))))).map fun t => t.chain.S) = some (levels [1, 0, 0, 0, 0, 0, 0, 0]) ∧
    ((after (.pinevClock true) (driven .clock .high (loaded (levels [0, 1, 0, 0, 0, 0, 0, 0]) (levels [])
      (board 1 (succeeding 1 false))))).map fun t => t.chain.S) = some (levels [0, 1, 0, 0, 0, 0, 0, 0]) := by decide
/-- V-X4, V-X5. -/
theorem test_pinevLatch :
    chainAfter (.pinevLatch true) (loaded (levels [1, 0, 1, 0, 0, 0, 0, 0]) (levels [1, 1, 1, 1, 1, 1, 1, 1])
      (board 1 (succeeding 1 false))) = some (levels [1, 0, 1, 0, 0, 0, 0, 0], levels [1, 0, 1, 0, 0, 0, 0, 0]) ∧
    chainAfter (.pinevLatch false) (driven .latch .high (loaded (levels [1, 0]) (levels [1, 1])
      (board 1 (succeeding 1 false)))) = some (levels [1, 0], levels [1, 1]) := by decide
/-- V-X6, V-X7. -/
theorem test_unknown_levels :
    ((after (.pinevClock true) (driven .clock .x (driven .data .high (loaded (levels [0, 0, 0, 0, 0, 0, 0, 0]) []
      (board 1 [{ io := .ok, reacted := false, edge := true, sensed := false }]))))).map fun t => t.chain.S) =
      some (levels [1, 0, 0, 0, 0, 0, 0, 0]) ∧
    ((after (.pinevClock true) (driven .data .x (board 1 (succeeding 1 false)))).map fun t => t.chain.S.head?) =
      some (some .x) := by decide

/-! ## Assembly text that is refused, and spaces (R57, log 15) -/

theorem test_assembler :
    assembleLine "PRAW s16".toList = none ∧ assembleLine "PRAW".toList = none ∧ assembleLine "CEN s0".toList = none ∧
    assembleLine "PSET s0, 0, 2".toList = none ∧ assembleLine "NOP".toList = none ∧
    assembleLine "  POFF  s2 ,7 ".toList = some (.command 0x00070212 0) := by decide

/-! ## Witnesses: concrete states and operands that meet each statement's premises -/

/-- One chip, configured for its 8 lights, light 7 and light 0 of slot 0 on, 27 successful pin operations to come. -/
def ready : State := slotted 0 8 0x81 (configured 8 (board 1 (succeeding 27 true)))

/-- `ready` with one request to serve. -/
def asked (r : Request) : State := { ready with port := [r] }

/-- `ready` with the pin operation at position `k` failing. -/
def broken (k : Nat) : State := { ready with draws := succeeding k true ++ [failing ⟨7⟩ true] }

theorem witness_board (n : Nat) (d : List Draw) (h : 1 ≤ n ∧ n ≤ 8) : Invariant (board n d) :=
  have hc : Conf.ok { chipCount := n, readback := .loopback } := by
    simp only [Conf.ok, Conf.capacity, Config.chipBits, Config.wordBits]; omega
  ⟨(inv_construct hc).conf, (inv_construct hc).slots, (inv_construct hc).cfg, (inv_construct hc).chain,
    (inv_construct hc).seen⟩

theorem witness_ready : Invariant ready :=
  inv_writeSlot (inv_configure (witness_board 1 _ (by decide)) (by decide) (by decide)) 0 (by decide)

theorem witness_NonInstanceIsRefused : ¬ (board 0 []).conf.ok ∧ ¬ (board 9 []).conf.ok := by decide
theorem witness_ResetStateAsTabled : (0 : Nat) < (board 1 []).conf.capacity ∧ 63 < (board 8 []).conf.capacity := by decide
theorem witness_ResetMeetsInvariant : (board 1 []).conf.ok ∧ (board 8 []).conf.ok := by decide
theorem witness_StepKeepsInvariant :
    ∃ t, Invariant (asked (.command 0x00000032 0)) ∧ step (asked (.command 0x00000032 0)) = .next t :=
  ⟨_, inv_port witness_ready _, rfl⟩
theorem witness_ResetInputClearsBlock : (asked .reset).conf.ok ∧ (asked .reset).port = .reset :: [] := by decide
theorem witness_ResetAbandonsCommand :
    ((asked (.commandReset 0x00000024 1 4)).conf.ok ∧
      (asked (.commandReset 0x00000024 1 4)).port = .commandReset 0x00000024 1 4 :: [] ∧
      decodeCommand 0x00000024 1 = .ok (.cwrite 1) ∧
      4 ≤ (effectOps (effectOf (.cwrite 1) (asked (.commandReset 0x00000024 1 4)))).length ∧
      NoFailure (asked (.commandReset 0x00000024 1 4)) 4) ∧
    (27 ≤ (effectOps (effectOf (.cwrite 1) (asked (.commandReset 0x00000024 1 27)))).length ∧
      NoFailure (asked (.commandReset 0x00000024 1 27)) 27) := by decide
theorem witness_StepRunsDecodedInstruction :
    ((asked (.command 0x00000020 0)).conf.ok ∧ (asked (.command 0x00000020 0)).port = .command 0x00000020 0 :: [] ∧
      decodeRequest (.command 0x00000020 0) = some .cen) ∧
    (ready.conf.ok ∧ ready.port = []) ∧ decodeTableWord 32 0x00000020 = some .cen ∧
    decodeTableWord 8 0x83 = some (.pinevClock true) := by decide
theorem witness_IllegalWordOnlyResponds :
    ((asked (.command 0x00002010 0)).conf.ok ∧ (asked (.command 0x00002010 0)).port = .command 0x00002010 0 :: [] ∧
      (0x00002010 : CommandWord) &&& 0x0000E000 ≠ 0) ∧
    ((0x00000016 : CommandWord) &&& 0x000000FF).toNat ∉ tableOpcodes := by decide
theorem witness_UnknownPinEventIsRefused :
    ((asked (.pinEvent 0x85)).conf.ok ∧ (asked (.pinEvent 0x85)).port = .pinEvent 0x85 :: [] ∧
      ((0x85 : PinByte) &&& 0x7F).toNat ∉ [1, 2, 3, 4]) ∧
    ((0x00 : PinByte) &&& 0x7F).toNat ∉ [1, 2, 3, 4] ∧ ((0x84 : PinByte) &&& 0x7F).toNat ∈ [1, 2, 3, 4] ∧
    ((0x01 : PinByte) &&& 0x7F).toNat ∈ [1, 2, 3, 4] := by decide
theorem witness_SafeInputsNeverStop : SafeInputs (asked (.pinEvent 0x83)) := by decide
theorem witness_OneResponsePerCommand :
    (asked (.command 0 0)).conf.ok ∧ (asked (.command 0 0)).port = .command 0 0 :: [] := by decide
theorem witness_StepExtendsTraceAndResponses : ∃ t, step (asked (.command 0x00000032 0)) = .next t := ⟨_, rfl⟩
theorem witness_LaterRequestsDoNotMatter : ∃ t, step { ready with port := .command 0x00000020 0 :: [.reset] } = .next t :=
  ⟨_, rfl⟩
theorem witness_OpcodeMapDecodes : (0 : Nat) < 65536 ∧ 65535 < 65536 := by decide
theorem witness_DecodeOfEncode : (Instr.pset 15 65535 true).wf = true := by decide
theorem witness_EncodeOfDecode : decodeCommand 0xFFFF1F20 7 = .ok .cen := by decide
theorem witness_UnusedFieldsAreIgnored :
    decodeCommand 0x00000020 0 = .ok .cen ∧ (0xFFFF1F20 : CommandWord) &&& usedBits .cen = 0x00000020 &&& usedBits .cen ∧
    (usesValue .cen = true → (7 : Word) = 0) := by decide
theorem witness_PinEventBytes :
    (asked (.pinEvent 0x83)).conf.ok ∧
    (0x83 : PinByte) = BitVec.ofNat 8 ((if true then 128 else 0) +
      match Line.clock with | .data => 1 | .control => 2 | .clock => 3 | .latch => 4) ∧
    (asked (.pinEvent 0x83)).port = .pinEvent 0x83 :: [] := by decide
theorem witness_AssembledLinesDecode :
    ((0 : Nat) < 65536 ∧ 65535 < 65536) ∧ ((16 : Nat) ≤ 16 ∨ 65536 ≤ 0) ∧ ((16 : Nat) ≤ 0 ∨ 65536 ≤ 65536) ∧
    ((2 ^ 64 : Nat) ≤ 2 ^ 64 ∨ 65536 ≤ 0) ∧ assemble (.prol 15 none) = some (.prol 15 1) := by decide

theorem witness_PnewConstructsPattern :
    (1 ≤ 1 ∧ 1 ≤ 64) ∧ (1 ≤ 64 ∧ 64 ≤ 64) ∧ ((0 : Nat) = 0 ∨ 0 > 64) ∧ ((65 : Nat) = 0 ∨ 65 > 64) := by decide
theorem witness_PgetReadsOneLight :
    readSlot ready 1 = none ∧ readSlot ready 0 = some { width := 8, bits := 0x81 } ∧ 7 < 8 ∧ 8 ≤ 8 := by decide
theorem witness_PsetWritesOneLight :
    readSlot ready 1 = none ∧ readSlot ready 0 = some { width := 8, bits := 0x81 } ∧
    ({ width := 8, bits := 0x81 } : Pattern).wf ∧ 7 < 8 ∧ 8 ≤ 8 := by decide
theorem witness_ProlRotatesLeft :
    readSlot ready 1 = none ∧ readSlot (slotted 2 1 1 ready) 2 = some { width := 1, bits := 1 } ∧
    ({ width := 1, bits := 1 } : Pattern).wf := by decide
theorem witness_ProrRotatesRight :
    readSlot ready 1 = none ∧ readSlot (slotted 2 64 3 ready) 2 = some { width := 64, bits := 3 } ∧
    ({ width := 64, bits := 3 } : Pattern).wf := by decide
theorem witness_PrawReadsAllLights :
    readSlot ready 1 = none ∧ readSlot ready 0 = some { width := 8, bits := 0x81 } ∧
    ({ width := 8, bits := 0x81 } : Pattern).wf ∧ 7 < 8 ∧ 8 ≤ 8 := by decide
theorem witness_EmptySlotGivesNoPattern :
    readSlot ready 1 = none ∧ isPatternCommand (.praw 0) = true ∧ ∃ t, exec (.praw 0) ready = .next t :=
  ⟨by decide, rfl, _, rfl⟩
theorem witness_RotationLaws :
    readSlot ready 0 = some { width := 8, bits := 0x81 } ∧ ({ width := 8, bits := 0x81 } : Pattern).wf ∧
    (∃ t u, exec (.prol 0 9) ready = .next t ∧ exec (.pror 0 9) t = .next u) ∧
    (∃ t u, exec (.pror 0 9) ready = .next t ∧ exec (.prol 0 9) t = .next u) ∧
    (∃ t, exec (.prol 0 8) ready = .next t) ∧ (∃ t, exec (.pror 0 8) ready = .next t) ∧
    (0 < 7 ∧ 7 < 8) ∧ (∃ t u, 7 < 8 ∧ exec (.pset 0 7 false) ready = .next t ∧ exec (.pget 0 7) t = .next u) ∧
    ∃ t pat, exec (.prol 0 1) ready = .next t ∧ readSlot t 0 = some pat :=
  ⟨by decide, by decide, ⟨_, _, rfl, rfl⟩, ⟨_, _, rfl, rfl⟩, ⟨_, rfl⟩, ⟨_, rfl⟩, by decide,
    ⟨_, _, by decide, rfl, rfl⟩, _, _, rfl, rfl⟩
theorem witness_RenderIsMostSignificantFirst :
    readSlot ready 1 = none ∧ readSlot ready 0 = some { width := 8, bits := 0x81 } ∧ 7 < 8 := by decide
theorem witness_SlotWidthIsFixed :
    (∃ t, exec (.pset 0 7 false) ready = .next t) ∧ readSlot ready 0 = some { width := 8, bits := 0x81 } ∧
    (∀ w on, Instr.pset 0 7 false ≠ .pnew 0 w on) ∧ ∀ on, Instr.pset 0 7 false ≠ .lnewpat 0 on :=
  ⟨⟨_, rfl⟩, by decide, nofun, nofun⟩

theorem witness_EnableAndDisable :
    NoFailure ready 1 ∧ FirstFailure (broken 0) 0 ⟨7⟩ ∧ ready.chain.Q[7]? = some .x := by decide
theorem witness_CisenReadsBack :
    NoFailure ready 1 ∧ Loopback ready ∧ ready.pins.control = .low ∧
    (driven .control .high ready).pins.control = .high ∧ FirstFailure (broken 0) 0 ⟨7⟩ := by decide
theorem witness_ReadbackIsAnyLevel :
    (NoFailure (driven .control .x ready) 1 ∧ (driven .control .x ready).pins.control = .x) ∧
    NoFailure { State.reset with draws := succeeding 1 true } 1 ∧
    ¬ Loopback { State.reset with draws := succeeding 1 true } := by decide
theorem witness_CshiftIssuesTheProtocol :
    NoFailure ready (3 + 3 * 0) ∧ NoFailure ready (3 + 3 * 8) ∧ 26 < 3 + 3 * 8 ∧ FirstFailure (broken 26) 26 ⟨7⟩ ∧
    FirstFailure (broken 0) 0 ⟨7⟩ := by decide
theorem witness_CwriteIsFullShift :
    NoFailure ready (3 + 3 * ready.conf.capacity) ∧
    ∀ j < ready.conf.capacity, (0x1FF : Word).getLsbD j = (0xFF : Word).getLsbD j := by decide
theorem witness_LinesAfterShift :
    NoFailure ready (3 + 3 * 0) ∧ NoFailure ready (3 + 3 * 1) ∧ ready.conf.ok ∧
    NoFailure ready (3 + 3 * ready.conf.capacity) ∧ ready.cfg = some 8 ∧
    readSlot ready 0 = some { width := 8, bits := 0x81 } := by decide
theorem witness_ShiftedBitsLand :
    ChainWf ready ∧ NoFailure ready (3 + 3 * 3) ∧ (2 < 3 ∧ 2 < ready.conf.capacity) ∧
    (3 ≤ 3 ∧ 3 < ready.conf.capacity) ∧ NoFailure ready (3 + 3 * ready.conf.capacity) ∧ 7 < ready.conf.capacity := by
  decide
theorem witness_ChainCommandsIgnoreTheStore : isChainCommand (.cwrite 1) = true ∧ ∃ t, exec (.cwrite 1) ready = .next t :=
  ⟨rfl, _, rfl⟩
theorem witness_EnableIsIndependentOfShifting :
    (∃ t, exec .cen ready = .next t) ∧ (∃ t, exec (.cshift 5 3) ready = .next t) ∧
    (∃ t, exec (.cwrite 5) ready = .next t) ∧
    ∃ t, 9 < 1 + 3 * 3 ∧ FirstFailure (broken 9) 9 ⟨7⟩ ∧ exec (.cshift 5 3) (broken 9) = .next t :=
  ⟨⟨_, rfl⟩, ⟨_, rfl⟩, ⟨_, rfl⟩, _, by decide, by decide, rfl⟩
theorem witness_LightsChangeOnlyAtLatch :
    (PinOp.set .latch true ∉ [PinOp.set .clock true] ∧ ∃ t v, runPins [.set .clock true] 0 0 ready = .completed t v) ∧
    (∃ t j e, runPins [.set .clock true] 0 0 (broken 0) = .failed t j e) ∧
    NoFailure ready 1 ∧ ready.chain.seen.latch = .low :=
  ⟨⟨by decide, _, _, rfl⟩, ⟨_, _, _, rfl⟩, by decide, by decide⟩
theorem witness_FullWriteClearsThePartialFrame :
    (loaded (levels [0, 1, 0, 1, 0, 1, 0, 1]) (levels [1, 1, 1, 1, 1, 1, 1, 1]) ready).conf = ready.conf ∧
    ChainWf ready ∧ ChainWf (loaded (levels [0, 1, 0, 1, 0, 1, 0, 1]) (levels [1, 1, 1, 1, 1, 1, 1, 1]) ready) ∧
    NoFailure ready (3 + 3 * ready.conf.capacity) ∧
    NoFailure (loaded (levels [0, 1, 0, 1, 0, 1, 0, 1]) (levels [1, 1, 1, 1, 1, 1, 1, 1]) ready)
      (3 + 3 * ready.conf.capacity) := by decide

theorem witness_UnconfiguredGivesNotConfigured : (board 1 []).cfg = none := by decide
theorem witness_LcfgConfigures :
    (1 ≤ 1 ∧ 1 ≤ ready.conf.capacity) ∧ (1 ≤ 8 ∧ 8 ≤ ready.conf.capacity) ∧ ((0 : Nat) = 0 ∨ 0 > ready.conf.capacity) ∧
    ((9 : Nat) = 0 ∨ 9 > ready.conf.capacity) := by decide
theorem witness_LnewpatConstructsPattern :
    (board 1 []).cfg = none ∧ ready.conf.ok ∧ CfgWf ready ∧ ready.cfg = some 8 := by decide
theorem witness_LsetChecksThenWrites :
    (board 1 []).cfg = none ∧ ready.cfg = some 8 ∧ readSlot ready 1 = none ∧
    (readSlot (slotted 1 7 0 ready) 1 = some { width := 7, bits := 0 } ∧ 7 ≠ 8) ∧
    readSlot ready 0 = some { width := 8, bits := 0x81 } ∧ NoFailure ready (3 + 3 * ready.conf.capacity) ∧
    (26 < 3 + 3 * (broken 26).conf.capacity ∧ FirstFailure (broken 26) 26 ⟨7⟩) ∧ FirstFailure (broken 0) 0 ⟨7⟩ := by
  decide
theorem witness_LsetPutsLightsInStages :
    Invariant ready ∧ ready.cfg = some 8 ∧ readSlot ready 0 = some { width := 8, bits := 0x81 } ∧
    NoFailure ready (3 + 3 * ready.conf.capacity) ∧ 7 < 8 ∧ ready.pins.control = .low ∧
    (driven .control .high ready).pins.control = .high := ⟨witness_ready, by decide⟩
theorem witness_LsetShowsLights :
    Invariant (driven .control .high ready) ∧ (driven .control .high ready).pins.control = .high ∧
    (driven .control .high ready).cfg = some 8 ∧
    readSlot (driven .control .high ready) 0 = some { width := 8, bits := 0x81 } ∧
    NoFailure (driven .control .high ready) (3 + 3 * (driven .control .high ready).conf.capacity) :=
  ⟨⟨witness_ready.conf, witness_ready.slots, witness_ready.cfg, witness_ready.chain,
    congrArg (setLine · .control .high) witness_ready.seen⟩, by decide⟩
theorem witness_LsetPadsShortPatterns :
    Invariant (slotted 1 5 0b10110 (configured 5 ready)) ∧ 2 < (slotted 1 5 0b10110 (configured 5 ready)).conf.capacity - 5 :=
  ⟨inv_writeSlot (inv_configure witness_ready (by decide) (by decide)) 1 (by decide), by decide⟩
theorem witness_DisplayCommandsDelegate :
    (board 1 []).cfg = none ∧ ready.cfg = some 8 ∧ NoFailure ready 1 ∧ Loopback ready ∧ ready.pins.control = .low ∧
    (driven .control .high ready).pins.control = .high := by decide

theorem witness_ErrorsChangeNothing :
    ∃ t, exec (.pget 1 0) ready = .next t ∧ Responded ready t (errorResponse .noPattern) ∧
      (errorResponse .noPattern).status ≠ .ok ∧ (errorResponse .noPattern).status ≠ .backendIO :=
  ⟨_, rfl, rfl, by decide⟩
theorem witness_StatusesAsTabled :
    (∃ t, exec (.pget 0 8) ready = .next t ∧ Responded ready t (rangeResponse 8 8)) ∧
    ∃ t, exec .cen (broken 0) = .next t ∧ Responded (broken 0) t (backendResponse 0 ⟨7⟩) :=
  ⟨⟨_, rfl, rfl⟩, _, rfl, rfl⟩
theorem witness_FailureKeepsEarlierEffects :
    (26 < (shiftOps 0x81 8).length ∧ FirstFailure (broken 26) 26 ⟨7⟩ ∧
      (shiftOps 0x81 8)[26]? = some (.set .latch false)) ∧
    (0 < [PinOp.getControl].length ∧ FirstFailure (broken 0) 0 ⟨7⟩ ∧ [PinOp.getControl][0]? = some .getControl) := by
  decide
theorem witness_PinOperationCounts :
    ∃ t, exec (.lset 0) ready = .next t ∧ Responded ready t (okResponse 0) ∧ (okResponse 0).status = .ok :=
  ⟨_, rfl, rfl, rfl⟩
theorem witness_OnlyTheseWrite : ∃ t, exec (.pset 0 7 false) ready = .next t := ⟨_, rfl⟩

theorem witness_DataAndControlEvents : NoFailure ready 1 := by decide
theorem witness_ClockEvents :
    NoFailure ready 1 ∧ ChainWf ready ∧ ready.chain.seen.clock = .low ∧
    (driven .clock .high ready).chain.seen.clock = .high ∧ 0 < ready.conf.capacity ∧ (1 ≤ 7 ∧ 7 < ready.conf.capacity) := by
  decide
theorem witness_LatchEvents :
    NoFailure ready 1 ∧ ready.chain.seen.latch = .low ∧ (driven .latch .high ready).chain.seen.latch = .high := by decide
theorem witness_UnknownLevelsAreDraws :
    NoFailure ready 1 ∧ ChainWf ready ∧ (driven .clock .x ready).chain.seen.clock = .x ∧
    (driven .latch .x ready).chain.seen.latch = .x ∧
    ((driven .data .x ready).chain.seen.clock = .low ∧ (driven .data .x ready).chain.seen.data = .x) ∧
    0 < ready.conf.capacity := by decide
theorem witness_FailedPinEvents :
    FirstFailure (broken 0) 0 ⟨7⟩ ∧ (drawAt (broken 0) 0).reacted = true ∧
    (drawAt { ready with draws := [failing ⟨7⟩ false] } 0).reacted = false := by decide

end Sys2Proof.Tests
end

section
/-! What one step can do, said once, and the statements of 00_scope.md: the construction constraint, the invariant of the
machine, and progress. -/

namespace Sys2Proof.Machine

/-! ## The two guards of a step: the configuration and the port -/

theorem step_of_not_ok {s : State} (h : ¬ s.conf.ok) : step s = .refused .notAnInstance := if_neg h

theorem step_of_ok {s : State} (h : s.conf.ok) : step s = serveNext s := if_pos h

theorem serveNext_nil {s : State} (h : s.port = []) : serveNext s = .next s := by
  simp [serveNext, h]

theorem serveNext_cons {s : State} {r : Request} {rest : List Request} (h : s.port = r :: rest) :
    serveNext s = serve r { s with port := rest } := by
  simp [serveNext, h]

/-- Everything a step that answers can do: the block waits, or it serves the oldest request (R46, R127). -/
theorem step_next_cases {s t : State} (h : step s = .next t) :
    s.conf.ok ∧ ((s.port = [] ∧ t = s) ∨
      ∃ r rest, s.port = r :: rest ∧ serve r { s with port := rest } = .next t) := by
  by_cases hok : s.conf.ok
  · rw [step_of_ok hok] at h
    cases hp : s.port with
    | nil =>
      rw [serveNext_nil hp] at h
      cases h
      exact ⟨hok, .inl ⟨rfl, rfl⟩⟩
    | cons r rest =>
      rw [serveNext_cons hp] at h
      exact ⟨hok, .inr ⟨r, rest, rfl, h⟩⟩
  · rw [step_of_not_ok hok] at h
    cases h

/-! ## One request -/

/-- No instruction stops the machine. -/
theorem exec_next (i : Instr) (s : State) : ∃ t, exec i s = .next t := by
  rcases exec_commit i s with ⟨h, -⟩ | ⟨_, _, -, h⟩ <;> exact ⟨_, h⟩

/-- Everything serving a request can do when it answers: an instruction executes, an illegal word only gets its response
(R103), the block is reset (R126), or a command is abandoned (R128). -/
theorem serve_next_cases {r : Request} {s t : State} (h : serve r s = .next t) :
    (∃ i, decodeRequest r = some i ∧ exec i s = .next t) ∨
    (∃ cmd value, r = .command cmd value ∧ t = respond s (errorResponse .illegalCommand)) ∨
    (r = .reset ∧ t = applyReset s) ∨
    ∃ cmd value issued e, r = .commandReset cmd value issued ∧ t = abandon e issued s ∧
      (e = illegalEffect ∨ ∃ i, decodeCommand cmd value = .ok i ∧ e = effectOf i s) := by
  cases r with
  | command cmd value =>
    simp only [serve, serveCommand] at h
    cases hd : decodeCommand cmd value with
    | ok i => rw [hd] at h; exact .inl ⟨i, congrArg Except.toOption hd, h⟩
    | error _ => rw [hd] at h; cases h; exact .inr (.inl ⟨cmd, value, rfl, rfl⟩)
  | pinEvent byte =>
    simp only [serve, servePinEvent] at h
    cases hd : decodePinEvent byte with
    | ok i => rw [hd] at h; exact .inl ⟨i, congrArg Except.toOption hd, h⟩
    | error _ => rw [hd] at h; cases h
  | reset => cases h; exact .inr (.inr (.inl ⟨rfl, rfl⟩))
  | commandReset cmd value issued =>
    cases h
    refine .inr (.inr (.inr ⟨cmd, value, issued, ?_⟩))
    unfold serveCommandReset
    cases hd : decodeCommand cmd value with
    | ok i => exact ⟨effectOf i s, rfl, rfl, .inr ⟨i, rfl, rfl⟩⟩
    | error _ => exact ⟨illegalEffect, rfl, rfl, .inl rfl⟩

/-- An abandoned command leaves the reset of what its first operations left, or of what the whole command left (R128). -/
theorem abandon_cases (e : Effect) (issued : Nat) (s : State) :
    (∃ t v, runPins ((effectOps e).take issued) 0 0 s = .completed t v ∧ abandon e issued s = applyReset t) ∨
    abandon e issued s = applyReset (commit e s) := by
  unfold abandon
  split
  · cases h : runPins ((effectOps e).take issued) 0 0 s with
    | completed t v => exact .inl ⟨t, v, rfl, rfl⟩
    | failed t k b => exact .inr rfl
  · exact .inr rfl

/-- Only a request that is not known is refused (R55, U7). -/
theorem serve_next_of_known {r : Request} (h : requestKnown r = true) (s : State) : ∃ t, serve r s = .next t := by
  cases r with
  | command cmd value =>
    simp only [serve, serveCommand]
    cases decodeCommand cmd value with
    | ok i => exact exec_next i s
    | error _ => exact ⟨_, rfl⟩
  | pinEvent byte =>
    simp only [requestKnown] at h
    simp only [serve, servePinEvent]
    cases hd : decodePinEvent byte with
    | ok i => exact exec_next i s
    | error _ => rw [hd] at h; cases h
  | reset => exact ⟨_, rfl⟩
  | commandReset cmd value issued => exact ⟨_, rfl⟩

theorem step_next_of_safeInputs {s : State} (h : SafeInputs s) : ∃ t, step s = .next t := by
  obtain ⟨hok, hknown⟩ := h
  rw [step_of_ok hok]
  cases hp : s.port with
  | nil => exact ⟨s, serveNext_nil hp⟩
  | cons r rest =>
    rw [serveNext_cons hp]
    exact serve_next_of_known (hknown r (by simp [hp])) _

/-! ## What a command writes -/

theorem whenConfigured_writes {s t : State} {v : Word} {rest : Nat → Effect}
    (h : whenConfigured s rest = .writes t v) : ∃ n, s.cfg = some n ∧ rest n = .writes t v := by
  cases hc : s.cfg with
  | none => rw [whenConfigured_none _ hc] at h; cases h
  | some n => rw [whenConfigured_some _ hc] at h; exact ⟨n, rfl, h⟩

theorem whenPattern_writes {s t : State} {p : Slot} {v : Word} {rest : Pattern → Effect}
    (h : whenPattern s p rest = .writes t v) : ∃ pat, readSlot s p = some pat ∧ rest pat = .writes t v := by
  cases hp : readSlot s p with
  | none => rw [whenPattern_none _ hp] at h; cases h
  | some pat => rw [whenPattern_some _ hp] at h; exact ⟨pat, rfl, h⟩

theorem writeOf_of_effectOf {i : Instr} {s t : State} {v : Word} (h : effectOf i s = .writes t v) : WriteOf i s t := by
  rcases exec_commit i s with ⟨-, hi⟩ | ⟨line, level, rfl, -⟩
  · rcases effectOf_cases i s hi with ⟨r, he, -⟩ | ⟨t', v', he, hw, -⟩ | ⟨ops, he, -⟩ <;> rw [h] at he <;> cases he
    exact hw
  · cases line <;> cases h

theorem WriteOf.sameInputs {i : Instr} {s t : State} (h : WriteOf i s t) : SameInputs s t := by
  rcases h with rfl | ⟨p, pat, rfl, -⟩ | ⟨n, -, rfl⟩ <;> exact ⟨rfl, rfl⟩

/-- A command's write keeps the invariant: every Pattern it constructs or changes is well-formed (R62 to R66, R92), and it
configures only within the bounds of R91. -/
theorem inv_effectOf_writes {i : Instr} {s t : State} {v : Word} (hs : Invariant s)
    (h : effectOf i s = .writes t v) : Invariant t := by
  cases i
  case pnew p width on =>
    simp only [effectOf, pnewEffect] at h
    split at h
    · cases h
    next hw =>
      cases h
      obtain ⟨h0, h64⟩ := not_or.mp hw
      exact inv_writeSlot hs p (wf_filled on (Nat.pos_of_ne_zero h0) (Nat.le_of_not_lt h64))
  case pget p index =>
    obtain ⟨pat, -, h⟩ := whenPattern_writes h
    split at h <;> cases h
    exact hs
  case pset p index value =>
    obtain ⟨pat, hp, h⟩ := whenPattern_writes h
    split at h
    · cases h
    · cases h
      exact inv_writeSlot hs p (wf_setLight (hs.slots p pat hp) value (by omega))
  case prol p count =>
    obtain ⟨pat, hp, h⟩ := whenPattern_writes h
    cases h
    exact inv_writeSlot hs p (wf_rotateLeft (hs.slots p pat hp) count)
  case pror p count =>
    obtain ⟨pat, hp, h⟩ := whenPattern_writes h
    cases h
    exact inv_writeSlot hs p (wf_rotateRight (hs.slots p pat hp) count)
  case praw p =>
    obtain ⟨pat, -, h⟩ := whenPattern_writes h
    cases h
    exact hs
  case lcfg lightCount =>
    simp only [effectOf, lcfgEffect] at h
    split at h
    · cases h
    · cases h
      exact inv_configure hs (by omega) (by omega)
  case lnewpat p on =>
    obtain ⟨n, hn, h⟩ := whenConfigured_writes h
    cases h
    obtain ⟨h1, hcap⟩ := hs.cfg n hn
    exact inv_writeSlot hs p (wf_filled on h1 (hcap.trans hs.conf.2))
  case lset p =>
    obtain ⟨n, -, h⟩ := whenConfigured_writes h
    obtain ⟨pat, -, h⟩ := whenPattern_writes h
    split at h <;> cases h
  case lon => obtain ⟨n, -, h⟩ := whenConfigured_writes h; cases h
  case loff => obtain ⟨n, -, h⟩ := whenConfigured_writes h; cases h
  case lison => obtain ⟨n, -, h⟩ := whenConfigured_writes h; cases h
  all_goals cases h

/-! ## What every part of a step keeps, a step keeps -/

theorem pinOp_set_fst (line : Line) (level : Bool) (s : State) :
    (pinOp (.set line level) s).1 = (pinSet line level s).1 := by
  rcases pinSet_cases line level s with ⟨hd, e⟩ | ⟨_, hd, e⟩
  · rw [e, pinOp_set_ok hd]
  · rw [e, pinOp_set_failed hd]

/-- Every part of which a step is made keeps `P`: giving a response, a pin operation, reset, a command's write. -/
structure Kept (P : State → Prop) : Prop where
  respond : ∀ {s}, P s → ∀ r, P (respond s r)
  pinOp : ∀ {s}, P s → ∀ op, P (pinOp op s).1
  reset : ∀ {s}, P s → P (applyReset s)
  writes : ∀ {i s t v}, P s → effectOf i s = .writes t v → P t

/-- What a command does: the effect of an instruction or of an illegal word. -/
def IsEffect (e : Effect) (s : State) : Prop := e = illegalEffect ∨ ∃ i, e = effectOf i s

section
variable {P : State → Prop} (hP : Kept P)
include hP

theorem Kept.runPins {s : State} (hs : P s) (ops : List PinOp) (k : Nat) (r : Word) :
    (∀ t v, runPins ops k r s = .completed t v → P t) ∧ ∀ t j e, runPins ops k r s = .failed t j e → P t :=
  runPins_induction ops (fun op _ s t v hs e => by
    have := hP.pinOp hs op
    rwa [e] at this) k r s hs

theorem Kept.issueAll {s : State} (hs : P s) (ops : List PinOp) : P (issueAll ops s) := by
  obtain ⟨completed, failed⟩ := hP.runPins hs ops 0 0
  rcases issueAll_cases ops s with ⟨-, t, v, e, -, g⟩ | ⟨j, b, -, -, t, e, -, g⟩ <;> rw [g]
  · exact hP.respond (completed t v e) _
  · exact hP.respond (failed t j b e) _

theorem Kept.commit {s : State} {e : Effect} (hs : P s) (he : IsEffect e s) : P (commit e s) := by
  cases e with
  | writes t v =>
    rcases he with he | ⟨i, hi⟩
    · cases he
    · exact hP.respond (hP.writes hs hi.symm) _
  | raises r => exact hP.respond hs r
  | pins ops => exact hP.issueAll hs ops

theorem Kept.abandon {s : State} {e : Effect} (hs : P s) (he : IsEffect e s) (issued : Nat) :
    P (abandon e issued s) := by
  rcases abandon_cases e issued s with ⟨t, v, hr, ha⟩ | ha <;> rw [ha]
  · exact hP.reset ((hP.runPins hs _ 0 0).1 t v hr)
  · exact hP.reset (hP.commit hs he)

theorem Kept.exec {i : Instr} {s t : State} (hs : P s) (h : exec i s = .next t) : P t := by
  rcases exec_commit i s with ⟨hc, -⟩ | ⟨line, level, -, hc⟩ <;> rw [hc] at h <;> cases h
  · exact hP.commit hs (.inr ⟨i, rfl⟩)
  · rw [← pinOp_set_fst]
    exact hP.pinOp hs (.set line level)

theorem Kept.serve {r : Request} {s t : State} (hs : P s) (h : serve r s = .next t) : P t := by
  rcases serve_next_cases h with ⟨i, -, hi⟩ | ⟨cmd, value, -, rfl⟩ | ⟨-, rfl⟩ | ⟨cmd, value, issued, e, -, rfl, he⟩
  · exact hP.exec hs hi
  · exact hP.respond hs _
  · exact hP.reset hs
  · exact hP.abandon hs (he.imp_right fun ⟨i, _, hi⟩ => ⟨i, hi⟩) issued

end

theorem kept_invariant : Kept Invariant where
  respond := inv_respond
  pinOp := inv_pinOp
  reset := inv_applyReset
  writes := inv_effectOf_writes

theorem kept_sameInputs (s : State) : Kept (SameInputs s) where
  respond := fun h _ => h
  pinOp := fun {t} h op => by
    rcases pinOp_cases op t with ⟨-, u, v, e, hf, -⟩ | ⟨_, -, u, e, hf, -⟩ <;> rw [e] <;>
      exact ⟨hf.conf.trans h.1, hf.port.trans h.2⟩
  reset := fun h => h
  writes := fun h he =>
    have ⟨hconf, hport⟩ := (writeOf_of_effectOf he).sameInputs
    ⟨hconf.trans h.1, hport.trans h.2⟩

/-- A step takes the oldest request off the port and changes nothing else of the machine's inputs. -/
theorem step_conf_port {s t : State} (h : step s = .next t) : t.conf = s.conf ∧ t.port = s.port.tail := by
  obtain ⟨-, ⟨hp, rfl⟩ | ⟨r, rest, hp, hr⟩⟩ := step_next_cases h
  · exact ⟨rfl, by rw [hp, List.tail_nil]⟩
  · rw [hp, List.tail_cons]
    exact (kept_sameInputs { s with port := rest }).serve ⟨rfl, rfl⟩ hr

/-! ## The statements -/

/-- Settles O4: by what a step can do, each part of a step keeping the invariant. -/
theorem stepKeepsInvariant : Obligations.StepKeepsInvariant := by
  intro s t hs h
  obtain ⟨-, ⟨-, rfl⟩ | ⟨r, rest, -, hr⟩⟩ := step_next_cases h
  · exact hs
  · exact kept_invariant.serve (inv_port hs rest) hr

/-- Settles O10: a step answers, and it leaves the configuration and the rest of the port. -/
theorem safeInputsNeverStop : Obligations.SafeInputsNeverStop := by
  intro s hs
  obtain ⟨t, ht⟩ := step_next_of_safeInputs hs
  obtain ⟨hok, hknown⟩ := hs
  obtain ⟨hconf, hport⟩ := step_conf_port ht
  refine ⟨t, ht, hconf ▸ hok, fun r hr => hknown r ?_⟩
  rw [hport] at hr
  exact List.mem_of_mem_tail hr

/-- Settles O1: `CAPACITY` is eight times `CHIP_COUNT`, and the guard of a step is the constraint. -/
theorem nonInstanceIsRefused : Obligations.NonInstanceIsRefused := by
  refine ⟨fun c => ?_, fun s => step_of_not_ok⟩
  simp only [Conf.ok, Conf.capacity, Config.chipBits, Config.wordBits]
  omega

/-- Settles O3: what power-up and reset construct meets the invariant, and `State.reset` is one such state. -/
theorem resetMeetsInvariant : Obligations.ResetMeetsInvariant :=
  ⟨inv_construct (by decide), fun _ => inv_construct⟩

end Sys2Proof.Machine
end

section
/-! Who writes what (the state of 10_state.md): the slots and the configuration, each line with the register its edges move,
the lines a shift leaves, the state after reset, the readback. -/

namespace Sys2Proof.Machine

/-! ## The slots and the configuration -/

/-- What an instruction leaves in the slots and the configuration is what its write leaves, however it ends. -/
theorem exec_store {i : Instr} {s t : State} (h : exec i s = .next t) : ∃ u, WriteOf i s u ∧ SameStore u t := by
  rcases exec_cases i s with ⟨line, level, -, e⟩ | ⟨r, -, e⟩ | ⟨u, v, hw, -, -, -, e⟩ | ⟨ops, -, -, -, -, -, e⟩ <;>
    rw [e] at h <;> cases h
  · refine ⟨s, .inl rfl, ?_⟩
    rcases pinSet_cases line level s with ⟨-, e⟩ | ⟨_, -, e⟩ <;> rw [e] <;> exact ⟨rfl, rfl⟩
  · exact ⟨s, .inl rfl, rfl, rfl⟩
  · exact ⟨u, hw, rfl, rfl⟩
  · exact ⟨s, .inl rfl, (issueAll_store ops s).1⟩

/-- The instructions that construct a Pattern in the slot `p` (R62, R92). -/
def Constructs (i : Instr) (p : Slot) : Prop := (∃ w on, i = .pnew p w on) ∨ ∃ on, i = .lnewpat p on

/-- The instructions that change the lights of the Pattern in the slot `p` (R64, R65, R66). -/
def Alters (i : Instr) (p : Slot) : Prop := (∃ a f, i = .pset p a f) ∨ (∃ a, i = .prol p a) ∨ ∃ a, i = .pror p a

/-- Everything that can become of a slot: it stays, it is constructed, or its Pattern is altered at the same width. -/
theorem exec_readSlot_cases {i : Instr} {s t : State} (h : exec i s = .next t) (p : Slot) :
    readSlot t p = readSlot s p ∨ Constructs i p ∨
    (Alters i p ∧ ∃ old pat, readSlot s p = some old ∧ readSlot t p = some pat ∧ pat.width = old.width) := by
  obtain ⟨u, hw, hslots, -⟩ := exec_store h
  rw [readSlot_of_slots_eq hslots]
  rcases hw with rfl | ⟨q, pat, rfl, hq⟩ | ⟨n, -, rfl⟩
  · exact .inl rfl
  · by_cases hpq : p = q
    · subst hpq
      rcases hq with hnew | hnew | ⟨halt, old, hold, hwidth⟩
      · exact .inr (.inl (.inl hnew))
      · exact .inr (.inl (.inr hnew))
      · exact .inr (.inr ⟨halt, old, pat, hold, readSlot_writeSlot_same s p pat, hwidth⟩)
    · exact .inl (readSlot_writeSlot_other s q p pat hpq)
  · exact .inl rfl

theorem exec_cfg {i : Instr} {s t : State} (h : exec i s = .next t) (hi : ∀ n, i ≠ .lcfg n) : t.cfg = s.cfg := by
  obtain ⟨u, hw, -, hcfg⟩ := exec_store h
  rcases hw with rfl | ⟨q, pat, rfl, -⟩ | ⟨n, rfl, -⟩
  · exact hcfg
  · exact hcfg
  · exact absurd rfl (hi n)

theorem not_constructs {i : Instr} {p : Slot} (hnew : ∀ w on, i ≠ .pnew p w on) (hpat : ∀ on, i ≠ .lnewpat p on) :
    ¬ Constructs i p := by
  rintro (⟨w, on, e⟩ | ⟨on, e⟩)
  · exact hnew w on e
  · exact hpat on e

theorem not_alters {i : Instr} {p : Slot} (hset : ∀ a f, i ≠ .pset p a f) (hrol : ∀ a, i ≠ .prol p a)
    (hror : ∀ a, i ≠ .pror p a) : ¬ Alters i p := by
  rintro (⟨a, f, e⟩ | ⟨a, e⟩ | ⟨a, e⟩)
  · exact hset a f e
  · exact hrol a e
  · exact hror a e

/-- Settles O32: what can become of a slot, without the construction. -/
theorem slotWidthIsFixed : Obligations.SlotWidthIsFixed := by
  intro i s t p pat h hp hnew hpat
  rcases exec_readSlot_cases h p with e | hc | ⟨-, old, pat', hold, ht, hwidth⟩
  · exact ⟨pat, e.trans hp, rfl⟩
  · exact absurd hc (not_constructs hnew hpat)
  · rw [hp] at hold
    cases hold
    exact ⟨pat', ht, hwidth⟩

/-! ## A line and the register its edges move -/

/-- What only an operation on `line` may write is as before: the line's record, and the register that the line's edges
move, `S` for the clock and `Q` for the latch (R111, R112). -/
structure LineKept (line : Line) (s t : State) : Prop where
  record : lineLevel t.pins line = lineLevel s.pins line
  shift : line = .clock → t.chain.S = s.chain.S
  store : line = .latch → t.chain.Q = s.chain.Q

theorem LineKept.of_eq {line : Line} {s t : State} (hp : t.pins = s.pins) (hc : t.chain = s.chain) :
    LineKept line s t :=
  ⟨by rw [hp], fun _ => by rw [hc], fun _ => by rw [hc]⟩

section
variable {line driven : Line} {s t : State} (hne : line ≠ driven)
include hne

theorem LineKept.setSucceeds (h : LineKept line s t) (level : Bool) (d : Draw) :
    LineKept line s (setSucceeds driven level d t) where
  record := (lineLevel_setLine_other _ _ _ _ hne).trans h.record
  shift := fun hl => (chainDriven_S (.inl (hl ▸ hne.symm))).trans (h.shift hl)
  store := fun hl => (chainDriven_Q (.inl (hl ▸ hne.symm))).trans (h.store hl)

theorem LineKept.setFails (h : LineKept line s t) (level : Bool) (d : Draw) :
    LineKept line s (setFails driven level d t) where
  record := (lineLevel_setLine_other _ _ _ _ hne).trans h.record
  shift := fun hl => (chainFails_S (.inl (hl ▸ hne.symm))).trans (h.shift hl)
  store := fun hl => (chainFails_Q (.inl (hl ▸ hne.symm))).trans (h.store hl)

theorem pinSet_lineKept (level : Bool) (s : State) : LineKept line s (pinSet driven level s).1 := by
  have hs : LineKept line s s := .of_eq rfl rfl
  rcases pinSet_cases driven level s with ⟨-, e⟩ | ⟨_, -, e⟩ <;> rw [e]
  · exact hs.setSucceeds hne level _
  · exact hs.setFails hne level _

end

/-- A command that never drives the line keeps it, however it ends. -/
theorem issueAll_lineKept {ops : List PinOp} {line : Line} (h : ∀ level, .set line level ∉ ops) (s : State) :
    LineKept line s (issueAll ops s) := by
  have hne : ∀ {driven level}, PinOp.set driven level ∈ ops → line ≠ driven := fun hm e => h _ (e ▸ hm)
  exact issueAll_keeps (P := LineKept line s) ops s (.of_eq rfl rfl)
    (hr := fun t r ht => ⟨ht.record, ht.shift, ht.store⟩)
    (ok := fun t driven level d hm ht => ht.setSucceeds (hne hm) level d)
    (failed := fun t driven level d hm ht => ht.setFails (hne hm) level d)
    (get := fun t ht => ⟨ht.record, ht.shift, ht.store⟩)

theorem WriteOf.pins_chain {i : Instr} {s t : State} (h : WriteOf i s t) : t.pins = s.pins ∧ t.chain = s.chain := by
  rcases h with rfl | ⟨p, pat, rfl, -⟩ | ⟨n, -, rfl⟩ <;> exact ⟨rfl, rfl⟩

/-- An instruction keeps a line that none of its pin operations drives and that is not the line of its pin event. -/
theorem exec_lineKept {i : Instr} {s t : State} {line : Line} (h : exec i s = .next t)
    (hops : ∀ ops, OpsOf i s ops → ∀ level, .set line level ∉ ops) (hevent : ∀ level, i ≠ pinEventOf line level) :
    LineKept line s t := by
  rcases exec_cases i s with ⟨driven, level, hi, e⟩ | ⟨r, -, e⟩ | ⟨u, v, hw, -, -, -, e⟩ | ⟨ops, ho, -, -, -, -, e⟩ <;>
    rw [e] at h <;> cases h
  · have hne : line ≠ driven := fun hl => hevent level (hi.trans (hl ▸ rfl))
    exact pinSet_lineKept hne level s
  · exact .of_eq rfl rfl
  · obtain ⟨hp, hc⟩ := hw.pins_chain
    exact .of_eq hp hc
  · exact issueAll_lineKept (hops ops ho) s

/-! ## Which commands drive which line -/

/-- CSHIFT drives the latch, the clock and the data line, and never the control line (R79, R85). -/
theorem control_not_mem_shiftOps (v : Word) (a : Nat) (level : Bool) : .set .control level ∉ shiftOps v a := by
  simp [shiftOps, shiftIterations_eq, shiftBit]

/-- The control line is driven by the enabling and disabling commands only, the others by the shifting commands only. -/
theorem opsOf_set_mem {i : Instr} {s : State} {ops : List PinOp} {line : Line} {level : Bool} (h : OpsOf i s ops)
    (hm : .set line level ∈ ops) :
    (line = .control ∧ (i = .cen ∨ i = .cdis ∨ i = .lon ∨ i = .loff)) ∨
    (line ≠ .control ∧ ((∃ v a, i = .cshift v a) ∨ (∃ v, i = .cwrite v) ∨ ∃ p, i = .lset p)) := by
  rcases h with ⟨hi, rfl⟩ | ⟨hi, rfl⟩ | ⟨-, rfl⟩ | ⟨v, a, rfl, hi⟩
  · obtain ⟨rfl, -⟩ := PinOp.set.inj (List.mem_singleton.mp hm)
    rcases hi with rfl | rfl <;> simp
  · obtain ⟨rfl, -⟩ := PinOp.set.inj (List.mem_singleton.mp hm)
    rcases hi with rfl | rfl <;> simp
  · cases List.mem_singleton.mp hm
  · refine .inr ⟨fun hl => control_not_mem_shiftOps v a level (hl ▸ hm), ?_⟩
    rcases hi with hi | ⟨hi, -⟩ | ⟨p, hi, -⟩
    · exact .inl ⟨v, a, hi⟩
    · exact .inr (.inl ⟨v, hi⟩)
    · exact .inr (.inr ⟨p, hi⟩)

section
variable {i : Instr} {s t : State} (h : exec i s = .next t)
include h

theorem exec_control_kept (hcen : i ≠ .cen) (hcdis : i ≠ .cdis) (hlon : i ≠ .lon) (hloff : i ≠ .loff)
    (hevent : ∀ level, i ≠ .pinevControl level) : LineKept .control s t := by
  refine exec_lineKept h (fun ops ho level hm => ?_) hevent
  rcases opsOf_set_mem ho hm with ⟨-, hi⟩ | ⟨hne, -⟩
  · rcases hi with hi | hi | hi | hi
    · exact hcen hi
    · exact hcdis hi
    · exact hlon hi
    · exact hloff hi
  · exact hne rfl

theorem exec_shiftLine_kept {line : Line} (hline : line ≠ .control) (hshift : ∀ v a, i ≠ .cshift v a)
    (hwrite : ∀ v, i ≠ .cwrite v) (hset : ∀ p, i ≠ .lset p) (hevent : ∀ level, i ≠ pinEventOf line level) :
    LineKept line s t := by
  refine exec_lineKept h (fun ops ho level hm => ?_) hevent
  rcases opsOf_set_mem ho hm with ⟨hl, -⟩ | ⟨-, hi⟩
  · exact hline hl
  · rcases hi with ⟨v, a, hi⟩ | ⟨v, hi⟩ | ⟨p, hi⟩
    · exact hshift v a hi
    · exact hwrite v hi
    · exact hset p hi

end

/-- Settles O54: the store by what can become of it, each line and its register by the operations that drive the line. -/
theorem onlyTheseWrite : Obligations.OnlyTheseWrite := by
  intro i s t h
  obtain ⟨hconf, hport⟩ : SameInputs s t := (kept_sameInputs s).exec ⟨rfl, rfl⟩ h
  refine ⟨hconf, hport, exec_cfg h, fun p hnew hset hrol hror hpat => ?_, fun hcen hcdis hlon hloff hevent => ?_,
    fun hshift hwrite hset => ⟨fun hevent => ?_, fun hevent => ?_, fun hevent => ?_⟩⟩
  · rcases exec_readSlot_cases h p with e | hc | ⟨ha, -⟩
    · exact e
    · exact absurd hc (not_constructs hnew hpat)
    · exact absurd ha (not_alters hset hrol hror)
  · exact (exec_control_kept h hcen hcdis hlon hloff hevent).record
  · have kept : LineKept .clock s t := exec_shiftLine_kept h nofun hshift hwrite hset hevent
    exact ⟨kept.shift rfl, kept.record⟩
  · have kept : LineKept .latch s t := exec_shiftLine_kept h nofun hshift hwrite hset hevent
    exact ⟨kept.store rfl, kept.record⟩
  · exact (exec_shiftLine_kept (line := .data) h nofun hshift hwrite hset hevent).record

/-! ## The lines after a completed shift -/

theorem capacity_pos {c : Conf} (h : c.ok) : 1 ≤ c.capacity := by
  obtain ⟨hchips, -⟩ := h
  simp only [Conf.capacity, Config.chipBits]
  omega

/-- CWRITE is CSHIFT with the count `CAPACITY` (R80). -/
theorem exec_cwrite_eq_cshift (value : Word) (s : State) :
    exec (.cwrite value) s = exec (.cshift value s.conf.capacity) s := rfl

/-- A completed CSHIFT of at least one bit leaves the latch low, the clock high, and the last bit on the data line. -/
theorem exec_cshift_lines {s : State} {value : Word} {a : Nat} (ha : 1 ≤ a) (h : NoFailure s (3 + 3 * a)) :
    ∃ t, exec (.cshift value a) s = .next t ∧ t.pins.latch = .low ∧ t.pins.control = s.pins.control ∧
      t.pins.clock = .high ∧ t.pins.data = if value.getLsbD (a - 1) then .high else .low := by
  obtain ⟨t, ht, -, hp, -⟩ := exec_cshift_ok (value := value) h
  have ha0 : a ≠ 0 := by omega
  rw [if_neg ha0, if_neg ha0] at hp
  refine ⟨_, ht, ?_⟩
  rw [respond_pins, hp]
  exact ⟨rfl, rfl, rfl, rfl⟩

/-- A completed CSHIFT of no bit only leaves the latch low. -/
theorem exec_cshift_zero_lines {s : State} {value : Word} (h : NoFailure s (3 + 3 * 0)) :
    ∃ t, exec (.cshift value 0) s = .next t ∧ t.pins = { s.pins with latch := .low } := by
  obtain ⟨t, ht, -, hp, -⟩ := exec_cshift_ok (value := value) h
  exact ⟨_, ht, hp⟩

/-- Settles O38: by CSHIFT's lines with and without a bit; CWRITE is such a CSHIFT, and LSET such a CWRITE. -/
theorem linesAfterShift : Obligations.LinesAfterShift := by
  intro s
  refine ⟨fun value a hno => ?_, fun value hok hno => exec_cshift_lines (capacity_pos hok) hno,
    fun p pat hok hcfg hslot hno => ?_⟩
  · rcases Nat.eq_zero_or_pos a with rfl | ha
    · obtain ⟨t, ht, hp⟩ := exec_cshift_zero_lines hno
      exact ⟨t, ht, by rw [hp], by rw [hp], fun h => absurd h (by decide), fun _ => by rw [hp]; exact ⟨rfl, rfl⟩⟩
    · obtain ⟨t, ht, hlatch, hcontrol, hmoved⟩ := exec_cshift_lines ha hno
      exact ⟨t, ht, hlatch, hcontrol, fun _ => hmoved, fun h0 => absurd h0 (Nat.ne_of_gt ha)⟩
  · rw [exec_lset_match hcfg hslot, exec_cwrite_eq_cshift]
    exact exec_cshift_lines (capacity_pos hok) hno

/-! ## Reset and the readback -/

@[simp] theorem readSlot_construct (c : Conf) (p : Slot) : readSlot (State.construct c) p = none := by
  simp [readSlot]

/-- Settles O2: by the fields of what power-up and reset construct; `State.reset` is that of one chip. -/
theorem resetStateAsTabled : Obligations.ResetStateAsTabled := by
  refine ⟨fun c => ⟨readSlot_construct c, rfl, rfl, rfl, rfl, rfl, List.length_replicate, List.length_replicate,
    fun k hk => ?_, rfl⟩, { chipCount := 1, readback := .sensed }, by decide, rfl⟩
  have unknown : (List.replicate c.capacity Level.x)[k]? = some .x := List.getElem?_replicate_of_lt hk
  exact ⟨unknown, unknown⟩

/-- Where the record is unknown, and without loopback, the readback is what the environment supplies (R20). -/
theorem ctlReadback_eq_sensed {r : Readback} {control : Level} (h : r ≠ .loopback ∨ control = .x) (sensed : Bool) :
    ctlReadback r control sensed = sensed := by
  cases r with
  | sensed => rfl
  | loopback =>
    rcases h with h | rfl
    · exact absurd rfl h
    · rfl

/-- A CISEN without a failure responds with the readback (R78). -/
theorem exec_cisen_ok {s : State} (h : NoFailure s 1) :
    exec .cisen s = .next (respond (issueOp s .getControl)
      (okResponse (bitWord (ctlReadback s.conf.readback s.pins.control (drawAt s 0).sensed)))) :=
  congrArg Host.Outcome.next (issueAll_get_ok h)

/-- Settles O35: CISEN's result is the readback, which here is the level of the operation's draw. -/
theorem readbackIsAnyLevel : Obligations.ReadbackIsAnyLevel := by
  intro s hno hopen
  refine ⟨_, exec_cisen_ok hno, ?_⟩
  rw [ctlReadback_eq_sensed hopen, bitWord_eq]
  rfl

end Sys2Proof.Machine
end

section
/-! One request a step (20_memory.md R36 to R42): the instruction a step runs, what a step adds to the outputs, what it does
not read, and the operation that changes the lights. -/

namespace Sys2Proof.Machine

/-! ## The instruction a step runs -/

theorem step_cons {s : State} {r : Request} {rest : List Request} (hok : s.conf.ok) (hp : s.port = r :: rest) :
    step s = serve r { s with port := rest } :=
  (step_of_ok hok).trans (serveNext_cons hp)

theorem eq_ok_of_toOption {ε α : Type} {e : Except ε α} {a : α} (h : e.toOption = some a) : e = .ok a := by
  cases e with
  | ok b => exact congrArg Except.ok (Option.some.inj h)
  | error _ => cases h

/-- A request that is not cut short by reset is served by its instruction. -/
theorem serve_of_decodeRequest {r : Request} {i : Instr} (hr : ∀ cmd value n, r ≠ .commandReset cmd value n)
    (h : decodeRequest r = some i) (s : State) : serve r s = exec i s := by
  cases r with
  | command cmd value =>
    have hd : decodeCommand cmd value = .ok i := eq_ok_of_toOption h
    simp only [serve, serveCommand, hd]
  | pinEvent byte =>
    have hd : decodePinEvent byte = .ok i := eq_ok_of_toOption h
    simp only [serve, servePinEvent, hd]
  | reset => cases h
  | commandReset cmd value n => exact absurd rfl (hr cmd value n)

/-- Table bits ask for a command or a pin event, which no reset cuts short. -/
theorem requestOfTableWord_ne_commandReset (nbits w : Nat) (cmd : CommandWord) (value : Word) (n : Nat) :
    requestOfTableWord nbits w ≠ .commandReset cmd value n := by
  unfold requestOfTableWord
  split <;> exact Request.noConfusion

/-- Settles O7: the two guards of a step passed, the oldest request is served by the instruction it decodes to. -/
theorem stepRunsDecodedInstruction : Obligations.StepRunsDecodedInstruction := by
  refine ⟨fun s r rest i hok hp hr hd => ?_, fun s hok hp => ?_, fun s nbits w i hok hd => ?_⟩
  · exact (step_cons hok hp).trans (serve_of_decodeRequest hr hd _)
  · exact (step_of_ok hok).trans (serveNext_nil hp)
  · have served : step (s.withFetchWord nbits w) = serve (requestOfTableWord nbits w) s :=
      step_cons (s := s.withFetchWord nbits w) hok rfl
    exact served.trans (serve_of_decodeRequest (requestOfTableWord_ne_commandReset nbits w) hd s)

/-! ## What a step adds to the outputs -/

/-- From `s` to `t` the pin operations `ops` were issued, each with one of the environment's answers, and the responses `rs`
were given. -/
structure Extends (s t : State) (ops : List PinOp) (rs : List Response) : Prop where
  issued : Issued s t ops
  responses : t.responses = s.responses ++ rs

theorem OpsFrame.toExtends {s t : State} {ops : List PinOp} (h : OpsFrame s t ops) : Extends s t ops [] :=
  ⟨⟨h.trace, h.drawn, h.draws⟩, h.responses.trans (List.append_nil _).symm⟩

theorem Extends.refl (s : State) : Extends s s [] [] := (OpsFrame.refl s).toExtends

theorem WriteOf.toExtends {i : Instr} {s t : State} (h : WriteOf i s t) : Extends s t [] [] := by
  obtain ⟨issued, responses⟩ := Extends.refl s
  rcases h with rfl | ⟨p, pat, rfl, -⟩ | ⟨n, -, rfl⟩ <;> exact ⟨issued, responses⟩

theorem Extends.respond {s t : State} {ops : List PinOp} (h : Extends s t ops []) (r : Response) :
    Extends s (respond t r) ops [r] :=
  ⟨h.issued, by rw [respond_responses, h.responses, List.append_nil]⟩

theorem Extends.applyReset {s t : State} {ops : List PinOp} {rs : List Response} (h : Extends s t ops rs) :
    Extends s (applyReset t) ops rs :=
  ⟨h.issued, h.responses⟩

theorem pinSet_extends (line : Line) (level : Bool) (s : State) :
    Extends s (pinSet line level s).1 [.set line level] [] := by
  rcases pinSet_cases line level s with ⟨-, e⟩ | ⟨_, -, e⟩ <;> rw [e]
  · exact (setSucceeds_frame line level _ s).toExtends
  · exact (setFails_frame line level _ s).toExtends

/-- A command that completes gives exactly one response, however it ends (R46). -/
theorem commit_extends {e : Effect} {s : State} (he : IsEffect e s) : ∃ ops r, Extends s (commit e s) ops [r] := by
  cases e with
  | writes t v =>
    rcases he with he | ⟨i, hi⟩
    · cases he
    · exact ⟨[], okResponse v, (writeOf_of_effectOf hi.symm).toExtends.respond _⟩
  | raises r => exact ⟨[], r, (Extends.refl s).respond r⟩
  | pins ops =>
    rw [commit_pins]
    rcases issueAll_cases ops s with ⟨-, t, v, -, hf, e⟩ | ⟨j, b, -, -, t, -, hf, e⟩ <;> rw [e]
    · exact ⟨_, _, hf.toExtends.respond _⟩
    · exact ⟨_, _, hf.toExtends.respond _⟩

/-- A command cut short by reset gives no response, and one that ended before gives its own (R128). -/
theorem abandon_extends {e : Effect} {s : State} (he : IsEffect e s) (issued : Nat) :
    ∃ ops rs, Extends s (abandon e issued s) ops rs ∧ rs.length ≤ 1 := by
  rcases abandon_cases e issued s with ⟨t, v, hr, ha⟩ | ha <;> rw [ha]
  · rcases runPins_cases ((effectOps e).take issued) 0 0 s with ⟨-, u, w, hu, hf⟩ | ⟨j, b, -, -, u, hu, -⟩ <;>
      rw [hr] at hu <;> cases hu
    exact ⟨_, [], hf.toExtends.applyReset, by simp⟩
  · obtain ⟨ops, r, h⟩ := commit_extends he
    exact ⟨ops, [r], h.applyReset, by simp⟩

theorem exec_extends {i : Instr} {s t : State} (h : exec i s = .next t) :
    ∃ ops rs, Extends s t ops rs ∧ rs.length ≤ 1 := by
  rcases exec_commit i s with ⟨hc, -⟩ | ⟨line, level, -, hc⟩ <;> rw [hc] at h <;> cases h
  · obtain ⟨ops, r, h⟩ := commit_extends (s := s) (.inr ⟨i, rfl⟩)
    exact ⟨ops, [r], h, by simp⟩
  · exact ⟨_, [], pinSet_extends line level s, by simp⟩

theorem serve_extends {r : Request} {s t : State} (h : serve r s = .next t) :
    ∃ ops rs, Extends s t ops rs ∧ rs.length ≤ 1 := by
  rcases serve_next_cases h with ⟨i, -, hi⟩ | ⟨cmd, value, -, rfl⟩ | ⟨-, rfl⟩ | ⟨cmd, value, issued, e, -, rfl, he⟩
  · exact exec_extends hi
  · exact ⟨[], _, (Extends.refl s).respond _, by simp⟩
  · exact ⟨[], [], (Extends.refl s).applyReset, by simp⟩
  · exact abandon_extends (he.imp_right fun ⟨i, _, hi⟩ => ⟨i, hi⟩) issued

/-- Settles O12: waiting adds nothing, and a request adds what its operations and its response add. -/
theorem stepExtendsTraceAndResponses : Obligations.StepExtendsTraceAndResponses := by
  intro s t h
  have ⟨ops, rs, ⟨⟨htrace, hdrawn, hdraws⟩, hresponses⟩, hlength⟩ : ∃ ops rs, Extends s t ops rs ∧ rs.length ≤ 1 := by
    obtain ⟨-, ⟨-, rfl⟩ | ⟨r, rest, -, hr⟩⟩ := step_next_cases h
    · exact ⟨[], [], Extends.refl t, by simp⟩
    · obtain ⟨ops, rs, hext, hlength⟩ := serve_extends hr
      exact ⟨ops, rs, ⟨hext.issued, hext.responses⟩, hlength⟩
  obtain ⟨hconf, hport⟩ := step_conf_port h
  exact ⟨ops, rs, htrace, hresponses, hlength, hdrawn, hdraws, hport, hconf⟩

/-! ## The requests behind the oldest are not read -/

/-- The state with other requests still to be served. -/
def withPort (port : List Request) (s : State) : State := { s with port := port }

/-- A change of the state applied to what an effect writes. -/
def Effect.map (f : State → State) : Effect → Effect
  | .writes t v => .writes (f t) v
  | .raises r => .raises r
  | .pins ops => .pins ops

@[simp] theorem effectOps_map (f : State → State) (e : Effect) : effectOps (e.map f) = effectOps e := by
  cases e <;> rfl

section
variable (port : List Request)

theorem whenConfigured_withPort {s : State} {rest rest' : Nat → Effect}
    (h : ∀ n, rest' n = (rest n).map (withPort port)) :
    whenConfigured (withPort port s) rest' = (whenConfigured s rest).map (withPort port) := by
  cases hc : s.cfg with
  | none => rw [whenConfigured_none rest hc, whenConfigured_none (s := withPort port s) rest' hc]; rfl
  | some n => rw [whenConfigured_some rest hc, whenConfigured_some (s := withPort port s) rest' hc, h]

theorem whenPattern_withPort {s : State} {p : Slot} {rest rest' : Pattern → Effect}
    (h : ∀ pat, rest' pat = (rest pat).map (withPort port)) :
    whenPattern (withPort port s) p rest' = (whenPattern s p rest).map (withPort port) := by
  cases hp : readSlot s p with
  | none => rw [whenPattern_none rest hp, whenPattern_none (s := withPort port s) rest' hp]; rfl
  | some pat => rw [whenPattern_some rest hp, whenPattern_some (s := withPort port s) rest' hp, h]

/-- The checks of a command and what it writes read no request. -/
theorem effectOf_withPort (i : Instr) (s : State) :
    effectOf i (withPort port s) = (effectOf i s).map (withPort port) := by
  cases i
  case pnew p width on =>
    symm
    exact apply_ite (Effect.map (withPort port)) (width = 0 ∨ width > Config.wordBits) _ _
  case pget p index => exact whenPattern_withPort port fun pat => by split <;> rfl
  case pset p index value => exact whenPattern_withPort port fun pat => by split <;> rfl
  case prol p count => exact whenPattern_withPort port fun pat => rfl
  case pror p count => exact whenPattern_withPort port fun pat => rfl
  case praw p => exact whenPattern_withPort port fun pat => rfl
  case lcfg lightCount =>
    symm
    exact apply_ite (Effect.map (withPort port)) (lightCount = 0 ∨ lightCount > s.conf.capacity) _ _
  case lnewpat p on => exact whenConfigured_withPort port fun n => rfl
  case lset p => exact whenConfigured_withPort port fun n => whenPattern_withPort port fun pat => by split <;> rfl
  case lon => exact whenConfigured_withPort port fun n => rfl
  case loff => exact whenConfigured_withPort port fun n => rfl
  case lison => exact whenConfigured_withPort port fun n => rfl
  all_goals rfl

theorem runPins_withPort (ops : List PinOp) (k : Nat) (r : Word) (s : State) :
    runPins ops k r (withPort port s) = (runPins ops k r s).map (withPort port) :=
  runPins_map (withPort port) (pinOp_withPort port) ops k r s

theorem issueAll_withPort (ops : List PinOp) (s : State) :
    issueAll ops (withPort port s) = withPort port (issueAll ops s) := by
  have run := runPins_withPort port ops 0 0 s
  cases h : runPins ops 0 0 s with
  | completed t v => rw [issueAll_completed h, issueAll_completed (run.trans (congrArg _ h))]; rfl
  | failed t k e => rw [issueAll_failed h, issueAll_failed (run.trans (congrArg _ h))]; rfl

theorem commit_withPort (e : Effect) (s : State) :
    commit (e.map (withPort port)) (withPort port s) = withPort port (commit e s) := by
  cases e with
  | writes t v => rfl
  | raises r => rfl
  | pins ops => exact issueAll_withPort port ops s

theorem abandon_withPort (e : Effect) (issued : Nat) (s : State) :
    abandon (e.map (withPort port)) issued (withPort port s) = withPort port (abandon e issued s) := by
  unfold abandon
  rw [effectOps_map, runPins_withPort, commit_withPort]
  split
  · cases runPins ((effectOps e).take issued) 0 0 s <;> rfl
  · rfl

theorem pinSet_withPort (line : Line) (level : Bool) (s : State) :
    (pinSet line level (withPort port s)).1 = withPort port (pinSet line level s).1 := by
  rw [← pinOp_set_fst, ← pinOp_set_fst]
  exact congrArg Prod.fst (pinOp_withPort port (.set line level) s)

theorem exec_withPort {i : Instr} {s t : State} (h : exec i s = .next t) :
    exec i (withPort port s) = .next (withPort port t) := by
  rcases exec_commit i s with ⟨hc, hi⟩ | ⟨line, level, rfl, hc⟩ <;> rw [hc] at h <;> cases h
  · rcases exec_commit i (withPort port s) with ⟨hc', -⟩ | ⟨line, level, e, -⟩
    · rw [hc', effectOf_withPort, commit_withPort]
    · exact absurd e (hi line level)
  · rw [← pinSet_withPort]
    cases line <;> rfl

theorem serve_withPort {r : Request} {s t : State} (h : serve r s = .next t) :
    serve r (withPort port s) = .next (withPort port t) := by
  cases r with
  | command cmd value =>
    simp only [serve, serveCommand] at h ⊢
    cases hd : decodeCommand cmd value with
    | ok i => rw [hd] at h; exact exec_withPort port h
    | error _ => rw [hd] at h; cases h; rfl
  | pinEvent byte =>
    simp only [serve, servePinEvent] at h ⊢
    cases hd : decodePinEvent byte with
    | ok i => rw [hd] at h; exact exec_withPort port h
    | error _ => rw [hd] at h; cases h
  | reset => cases h; rfl
  | commandReset cmd value issued =>
    cases h
    refine congrArg Host.Outcome.next ?_
    unfold serveCommandReset
    cases decodeCommand cmd value with
    | ok i => exact (congrArg (abandon · issued _) (effectOf_withPort port i s)).trans (abandon_withPort port _ issued s)
    | error _ => exact abandon_withPort port illegalEffect issued s

end

/-- Settles O13: a step reads of the port the oldest request alone, and serving it leaves the others in place. -/
theorem laterRequestsDoNotMatter : Obligations.LaterRequestsDoNotMatter := by
  intro s t r rest other h
  obtain ⟨hok, -⟩ := step_next_cases h
  rw [step_cons (s := { s with port := r :: rest }) hok rfl] at h
  rw [step_cons (s := { s with port := r :: other }) hok rfl]
  exact serve_withPort other (s := { s with port := rest }) h

/-! ## The operation that changes the lights -/

theorem ne_latch_or_low {ops : List PinOp} {line : Line} {level : Bool} (h : .set .latch true ∉ ops)
    (hm : .set line level ∈ ops) : line ≠ .latch ∨ level = false := by
  by_contra hc
  obtain ⟨hline, hlevel⟩ := not_or.mp hc
  rw [not_not.mp hline, Bool.eq_true_of_not_eq_false hlevel] at hm
  exact h hm

/-- Operations that never drive the latch high leave `Q`, completed or failed (R40, R108). -/
theorem runPins_Q {ops : List PinOp} (h : .set .latch true ∉ ops) (k : Nat) (r : Word) (s : State) :
    (∀ t v, runPins ops k r s = .completed t v → t.chain.Q = s.chain.Q) ∧
    ∀ t j e, runPins ops k r s = .failed t j e → t.chain.Q = s.chain.Q := by
  refine runPins_induction (P := fun t => t.chain.Q = s.chain.Q) ops (fun op hop t u v ht e => ?_) k r s rfl
  have low : ∀ {line level}, op = .set line level → line ≠ .latch ∨ level = false :=
    fun ho => ne_latch_or_low h (ho ▸ hop)
  exact pinOp_keeps (P := fun t => t.chain.Q = s.chain.Q) op t u v ht
    (ok := fun t line level d ho ht => (chainDriven_Q (low ho)).trans ht)
    (failed := fun t line level d ho ht => (chainFails_Q (low ho)).trans ht)
    (get := fun t ht => ht) e

/-- At a rising edge of the latch the storage register takes all of the shift register (R112). -/
theorem chainReacts_latch_Q {n : Nat} {edge : Bool} {c : Chain} (h : c.seen.latch = .low) :
    (chainReacts n .latch true edge c).Q = c.S := by
  have rising : risingEdge (lineLevel c.seen .latch) true edge = true := by
    rw [show lineLevel c.seen .latch = .low from h]
    rfl
  simp [chainReacts, chainDriven, rising, chainEdge]

/-- Settles O42: no operation but latch high moves `Q`, and latch high after low is the latch edge. -/
theorem lightsChangeOnlyAtLatch : Obligations.LightsChangeOnlyAtLatch := by
  refine ⟨fun ops k r s h => runPins_Q h k r s, fun s hno hlow => ?_⟩
  rw [pinOp_set_ok (hno 0 Nat.one_pos), setSucceeds_chain]
  exact chainReacts_latch_Q hlow

end Sys2Proof.Machine
end

section
/-! The encoding (30_encoding.md): the fields of a command word, the decoder on them, what is encoded of a decoded command,
pin-event bytes and assembly lines, and the response a command gives (R46, R50, R102). -/

namespace Sys2Proof.Machine

/-! ## The fields of a command word (R47) -/

theorem fieldOp_toNat (cmd : CommandWord) : (fieldOp cmd).toNat = cmd.toNat % 256 := by
  simp [fieldOp, BitVec.extractLsb'_toNat]

theorem fieldS_val (cmd : CommandWord) : (fieldS cmd).val = cmd.toNat / 256 % 16 := by
  simp [fieldS, Nat.shiftRight_eq_div_pow]

theorem fieldF_toNat (cmd : CommandWord) : (fieldF cmd).toNat = cmd.toNat / 4096 % 2 := by
  rw [fieldF, BitVec.getLsbD, Nat.toNat_testBit]

theorem fieldRsv_toNat (cmd : CommandWord) : (fieldRsv cmd).toNat = cmd.toNat / 8192 % 8 := by
  simp [fieldRsv, BitVec.extractLsb'_toNat, Nat.shiftRight_eq_div_pow]

theorem fieldA_eq (cmd : CommandWord) : fieldA cmd = cmd.toNat / 65536 % 65536 := by
  simp [fieldA, BitVec.extractLsb'_toNat, Nat.shiftRight_eq_div_pow]

theorem fieldA_lt (cmd : CommandWord) : fieldA cmd < 65536 := (cmd.extractLsb' 16 16).isLt

/-- The five fields are the whole word. -/
theorem fields_ext {x y : CommandWord} (hop : fieldOp x = fieldOp y) (hs : fieldS x = fieldS y)
    (hf : fieldF x = fieldF y) (hrsv : fieldRsv x = fieldRsv y) (ha : fieldA x = fieldA y) : x = y := by
  have op := congrArg BitVec.toNat hop
  have s := congrArg Fin.val hs
  have f := congrArg Bool.toNat hf
  have rsv := congrArg BitVec.toNat hrsv
  simp only [fieldOp_toNat, fieldS_val, fieldF_toNat, fieldRsv_toNat, fieldA_eq] at op s f rsv ha
  apply BitVec.eq_of_toNat_eq
  omega

theorem fieldOp_and (x m : CommandWord) : fieldOp (x &&& m) = fieldOp x &&& fieldOp m := BitVec.extractLsb'_and

theorem fieldRsv_and (x m : CommandWord) : fieldRsv (x &&& m) = fieldRsv x &&& fieldRsv m := BitVec.extractLsb'_and

theorem fieldF_and (x m : CommandWord) : fieldF (x &&& m) = (fieldF x && fieldF m) := BitVec.getLsbD_and

/-- The bits of `op` and `rsv`, and of those of `s`, `f` and `a` that a command uses (R49). -/
def fieldMask (s f a : Bool) : CommandWord :=
  0xE0FF ||| (if s then 0x0F00 else 0) ||| (if f then 0x1000 else 0) ||| (if a then 0xFFFF0000 else 0)

section
variable (cmd : CommandWord) (s f a : Bool)

theorem fieldOp_and_fieldMask : fieldOp (cmd &&& fieldMask s f a) = fieldOp cmd := by
  have mask : fieldOp (fieldMask s f a) = BitVec.allOnes 8 := by revert s f a; decide
  rw [fieldOp_and, mask, BitVec.and_allOnes]

theorem fieldRsv_and_fieldMask : fieldRsv (cmd &&& fieldMask s f a) = fieldRsv cmd := by
  have mask : fieldRsv (fieldMask s f a) = BitVec.allOnes 3 := by revert s f a; decide
  rw [fieldRsv_and, mask, BitVec.and_allOnes]

theorem fieldF_and_fieldMask : fieldF (cmd &&& fieldMask s f a) = (f && fieldF cmd) := by
  have mask : fieldF (fieldMask s f a) = f := by revert s f a; decide
  rw [fieldF_and, mask, Bool.and_comm]

theorem fieldS_and_fieldMask : fieldS (cmd &&& fieldMask s f a) = if s then fieldS cmd else 0 := by
  have mask : (fieldMask s f a).extractLsb' 8 4 = if s then BitVec.allOnes 4 else 0 := by revert s f a; decide
  rw [fieldS, BitVec.extractLsb'_and, mask]
  cases s
  · exact congrArg BitVec.toFin BitVec.and_zero
  · exact congrArg BitVec.toFin BitVec.and_allOnes

theorem fieldA_and_fieldMask : fieldA (cmd &&& fieldMask s f a) = if a then fieldA cmd else 0 := by
  have mask : (fieldMask s f a).extractLsb' 16 16 = if a then BitVec.allOnes 16 else 0 := by revert s f a; decide
  rw [fieldA, BitVec.extractLsb'_and, mask]
  cases a
  · exact congrArg BitVec.toNat BitVec.and_zero
  · exact congrArg BitVec.toNat BitVec.and_allOnes

/-- A word with `rsv = 0`, its unused fields cleared, is R47's word of its opcode and the fields that are left. -/
theorem and_fieldMask_eq_commandWord (hrsv : fieldRsv cmd = 0) :
    cmd &&& fieldMask s f a = commandWord (fieldOp cmd).toNat (if s then fieldS cmd else 0) (f && fieldF cmd)
      (if a then fieldA cmd else 0) := by
  have hop : (fieldOp cmd).toNat < 256 := (fieldOp cmd).isLt
  have ha : (if a then fieldA cmd else 0) < 65536 := by split <;> [exact fieldA_lt cmd; decide]
  apply fields_ext
  · rw [fieldOp_and_fieldMask, ← BitVec.toNat_inj, fieldOp_commandWord _ _ _ _ hop]
  · rw [fieldS_and_fieldMask, fieldS_commandWord _ _ _ _ hop]
  · rw [fieldF_and_fieldMask, fieldF_commandWord _ _ _ _ hop]
  · rw [fieldRsv_and_fieldMask, fieldRsv_commandWord _ _ _ _ hop, hrsv]
  · rw [fieldA_and_fieldMask, fieldA_commandWord _ _ _ _ hop ha]

end

/-! ## The decoder on fields (R51, R52) -/

/-- The decoder's table on the fields instead of the word: the command of an opcode with the operands it takes from the
other fields and `VALUE` (R51). -/
def commandOf (op : Nat) (p : Slot) (f : Bool) (a : Nat) (v : Word) : Option Instr :=
  match op with
  | 0x10 => some (.pnew p a f)
  | 0x11 => some (.pget p a)
  | 0x12 => some (.pset p a f)
  | 0x13 => some (.prol p a)
  | 0x14 => some (.pror p a)
  | 0x15 => some (.praw p)
  | 0x20 => some .cen
  | 0x21 => some .cdis
  | 0x22 => some .cisen
  | 0x23 => some (.cshift v a)
  | 0x24 => some (.cwrite v)
  | 0x30 => some (.lcfg a)
  | 0x31 => some (.lnewpat p f)
  | 0x32 => some (.lset p)
  | 0x33 => some .lon
  | 0x34 => some .loff
  | 0x35 => some .lison
  | _ => none

theorem decodeOpcode_eq (cmd : CommandWord) (v : Word) :
    decodeOpcode cmd v = commandOf (fieldOp cmd).toNat (fieldS cmd) (fieldF cmd) (fieldA cmd) v := rfl

theorem decodeCommand_ok_iff {cmd : CommandWord} {v : Word} {i : Instr} :
    decodeCommand cmd v = .ok i ↔
      fieldRsv cmd = 0 ∧ commandOf (fieldOp cmd).toNat (fieldS cmd) (fieldF cmd) (fieldA cmd) v = some i := by
  rw [← decodeOpcode_eq, decodeCommand]
  by_cases hrsv : fieldRsv cmd = 0
  · cases decodeOpcode cmd v <;> simp [hrsv]
  · rw [if_pos hrsv]
    exact ⟨nofun, fun ⟨h, _⟩ => absurd h hrsv⟩

/-- The word of R47 decodes by its fields. -/
theorem decodeCommand_commandWord {op a : Nat} {p : Slot} {f : Bool} {v : Word} {i : Instr} (hop : op < 256)
    (ha : a < 65536) (h : commandOf op p f a v = some i) : decodeCommand (commandWord op p f a) v = .ok i := by
  rw [decodeCommand_ok_iff, fieldOp_commandWord _ _ _ _ hop, fieldS_commandWord _ _ _ _ hop,
    fieldF_commandWord _ _ _ _ hop, fieldA_commandWord _ _ _ _ hop ha]
  exact ⟨fieldRsv_commandWord _ _ _ _ hop, h⟩

theorem commandOf_isSome_iff (op : Nat) (p : Slot) (f : Bool) (a : Nat) (v : Word) :
    (∃ i, commandOf op p f a v = some i) ↔ op ∈ tableOpcodes := by
  unfold commandOf
  split <;> simp_all [tableOpcodes]

/-- Another filling of the fields gives another form of the same command, which uses the same fields. -/
theorem commandOf_sameFields {op a : Nat} {p : Slot} {f : Bool} {v : Word} {i : Instr}
    (h : commandOf op p f a v = some i) (p' : Slot) (f' : Bool) (a' : Nat) (v' : Word) :
    ∃ i', commandOf op p' f' a' v' = some i' ∧ usedBits i' = usedBits i ∧ usesValue i' = usesValue i := by
  unfold commandOf at h ⊢
  split at h <;> cases h <;> exact ⟨_, rfl, rfl, rfl⟩

/-- Settles O14: the word of R47 has the fields it is made of, and each opcode names its command. -/
theorem opcodeMapDecodes : Obligations.OpcodeMapDecodes := by
  intro p f a v ha word
  have row {op : Nat} {i : Instr} (hop : op < 256) (h : commandOf op p f a v = some i) :
      decodeCommand (word op) v = .ok i := decodeCommand_commandWord hop ha h
  refine ⟨?_, ?_, ?_, ?_, ?_, ?_, ?_, ?_, ?_, ?_, ?_, ?_, ?_, ?_, ?_, ?_, ?_⟩ <;> exact row (by decide) rfl

/-! ## Decoding encodings (R51, R55) -/

theorem fitsA_of_lt {a : Nat} (h : a < 65536) : fitsA a = true := decide_eq_true h

theorem fitsA_of_ge {a : Nat} (h : 65536 ≤ a) : fitsA a = false := decide_eq_false (Nat.not_lt.mpr h)

theorem decodeRequest_commandWord {op a : Nat} {p : Slot} {f : Bool} {v : Word} {i : Instr} (hop : op < 256)
    (ha : fitsA a = true) (h : commandOf op p f a v = some i) :
    decodeRequest (.command (commandWord op p f a) v) = some i :=
  congrArg Except.toOption (decodeCommand_commandWord hop (of_decide_eq_true ha) h)

/-- The byte of a line and a level is that pin event (R54, R55). -/
theorem decodePinEvent_pinByte (line : Line) (level : Bool) :
    decodePinEvent (pinByte (lineId line) level) = .ok (pinEventOf line level) := by
  cases line <;> cases level <;> rfl

theorem decodeRequest_pinByte (line : Line) (level : Bool) :
    decodeRequest (.pinEvent (pinByte (lineId line) level)) = some (pinEventOf line level) :=
  congrArg Except.toOption (decodePinEvent_pinByte line level)

/-- Settles O16: each constructor is the row of its opcode, or the pin event of its line. -/
theorem decodeOfEncode : Obligations.DecodeOfEncode := by
  intro i hi
  cases i
  case pinevData level => exact decodeRequest_pinByte .data level
  case pinevControl level => exact decodeRequest_pinByte .control level
  case pinevClock level => exact decodeRequest_pinByte .clock level
  case pinevLatch level => exact decodeRequest_pinByte .latch level
  case praw | cen | cdis | cisen | cwrite | lnewpat | lset | lon | loff | lison =>
    exact decodeRequest_commandWord (by decide) (by decide) rfl
  case pnew | pget | pset | prol | pror | cshift | lcfg =>
    exact decodeRequest_commandWord (by decide) hi rfl

/-! ## Encoding what was decoded (R49) -/

/-- Whether the command uses the slot number. -/
def usesS (i : Instr) : Bool := (usedBits i).getLsbD 8

/-- Whether the command uses the flag. -/
def usesF (i : Instr) : Bool := (usedBits i).getLsbD 12

/-- Whether the command uses the operand `a`. -/
def usesA (i : Instr) : Bool := (usedBits i).getLsbD 16

section
variable {op a : Nat} {p : Slot} {f : Bool} {v : Word} {i : Instr} (h : commandOf op p f a v = some i)
include h

theorem wf_of_commandOf (ha : a < 65536) : i.wf = true := by
  unfold commandOf at h
  split at h <;> cases h <;> simp [Instr.wf, fitsA_of_lt ha]

theorem usedBits_of_commandOf : usedBits i = fieldMask (usesS i) (usesF i) (usesA i) := by
  unfold commandOf at h
  split at h <;> cases h <;> simp only [usesS, usesF, usesA, usedBits] <;> decide

/-- A command is encoded from its opcode and the fields it uses. -/
theorem encode_of_commandOf :
    encode i = .command (commandWord op (if usesS i then p else 0) (usesF i && f) (if usesA i then a else 0))
      (if usesValue i then v else 0) := by
  unfold commandOf at h
  split at h <;> cases h <;> simp [encode, usesS, usesF, usesA, usedBits, usesValue]

end

/-- Settles O17: a command is encoded from the fields it uses, which are the word with the others cleared. -/
theorem encodeOfDecode : Obligations.EncodeOfDecode := by
  intro cmd v i h
  obtain ⟨hrsv, hc⟩ := decodeCommand_ok_iff.mp h
  refine ⟨wf_of_commandOf hc (fieldA_lt cmd), ?_⟩
  rw [encode_of_commandOf hc, usedBits_of_commandOf hc, and_fieldMask_eq_commandWord _ _ _ _ hrsv]

/-- A word that agrees with a command's in the bits it uses has its opcode and no reserved bit. -/
theorem fieldOp_fieldRsv_of_and_usedBits {cmd cmd' : CommandWord} {v : Word} {i : Instr}
    (h : decodeCommand cmd v = .ok i) (hbits : cmd' &&& usedBits i = cmd &&& usedBits i) :
    fieldOp cmd' = fieldOp cmd ∧ fieldRsv cmd' = 0 := by
  obtain ⟨hrsv, hc⟩ := decodeCommand_ok_iff.mp h
  rw [usedBits_of_commandOf hc] at hbits
  have op := congrArg fieldOp hbits
  have rsv := congrArg fieldRsv hbits
  rw [fieldOp_and_fieldMask, fieldOp_and_fieldMask] at op
  rw [fieldRsv_and_fieldMask, fieldRsv_and_fieldMask, hrsv] at rsv
  exact ⟨op, rsv⟩

/-- Settles O18: the two words decode to the same command, both to the instruction that their used bits encode. -/
theorem unusedFieldsAreIgnored : Obligations.UnusedFieldsAreIgnored := by
  intro cmd cmd' v v' i h hbits hvalue
  obtain ⟨-, hc⟩ := decodeCommand_ok_iff.mp h
  obtain ⟨hop, hrsv'⟩ := fieldOp_fieldRsv_of_and_usedBits h hbits
  obtain ⟨i', hc', hused, huses⟩ := commandOf_sameFields hc (fieldS cmd') (fieldF cmd') (fieldA cmd') v'
  have h' : decodeCommand cmd' v' = .ok i' := decodeCommand_ok_iff.mpr ⟨hrsv', by rw [hop, hc']⟩
  obtain ⟨hwf, hencode⟩ := encodeOfDecode cmd v i h
  obtain ⟨hwf', hencode'⟩ := encodeOfDecode cmd' v' i' h'
  have value : (if usesValue i then v' else 0) = if usesValue i then v else 0 := by
    split
    next hu => exact hvalue hu
    next => rfl
  have same : encode i' = encode i := by rw [hencode', hencode, hused, huses, hbits, value]
  have hi : some i' = some i := by rw [← decodeOfEncode i' hwf', same, decodeOfEncode i hwf]
  rw [h', Option.some.inj hi]

/-! ## Which words are commands (R52, R53) -/

theorem fieldRsv_eq_zero_iff (cmd : CommandWord) : fieldRsv cmd = 0 ↔ cmd &&& 0x0000E000 = 0 := by
  have mask : fieldRsv (cmd &&& 0x0000E000) = fieldRsv cmd := (fieldRsv_and cmd _).trans BitVec.and_allOnes
  constructor
  · intro h
    apply fields_ext
    · exact (fieldOp_and cmd _).trans BitVec.and_zero
    · exact congrArg BitVec.toFin (BitVec.extractLsb'_and.trans BitVec.and_zero)
    · exact (fieldF_and cmd _).trans (Bool.and_false _)
    · exact mask.trans h
    · exact congrArg BitVec.toNat (BitVec.extractLsb'_and.trans BitVec.and_zero)
  · intro h
    rw [← mask, h]
    rfl

theorem toNat_and_low_byte (cmd : CommandWord) : (cmd &&& 0x000000FF).toNat = (fieldOp cmd).toNat := by
  rw [fieldOp_toNat, BitVec.toNat_and]
  exact Nat.and_two_pow_sub_one_eq_mod cmd.toNat 8

/-- Settles O15: the reserved bits are one field, the opcode another, and the decoder checks nothing else. -/
theorem reservedWordsAreIllegal : Obligations.ReservedWordsAreIllegal := by
  intro cmd v
  rw [← fieldRsv_eq_zero_iff, toNat_and_low_byte, ← commandOf_isSome_iff _ (fieldS cmd) (fieldF cmd) (fieldA cmd) v,
    ← exists_and_left]
  exact exists_congr fun i => decodeCommand_ok_iff

/-- Settles O19: the decoder run on each word. -/
theorem sampleWordsDecode : Obligations.SampleWordsDecode := by
  unfold Obligations.SampleWordsDecode
  decide

/-! ## A command at the port (R46, R101) -/

theorem commandOf_ne_pinEventOf {op a : Nat} {p : Slot} {f : Bool} {v : Word} (line : Line) (level : Bool) :
    commandOf op p f a v ≠ some (pinEventOf line level) := by
  intro h
  have hencode := encode_of_commandOf h
  cases line <;> cases hencode

/-- A command word, legal or not, completes with an effect (R101, R103). -/
theorem serveCommand_eq_commit (cmd : CommandWord) (v : Word) (s : State) :
    ∃ e, IsEffect e s ∧ serveCommand cmd v s = .next (commit e s) := by
  unfold serveCommand
  cases hd : decodeCommand cmd v with
  | ok i =>
    obtain ⟨-, hc⟩ := decodeCommand_ok_iff.mp hd
    rcases exec_commit i s with ⟨h, -⟩ | ⟨line, level, rfl, -⟩
    · exact ⟨effectOf i s, .inr ⟨i, rfl⟩, h⟩
    · exact absurd hc (commandOf_ne_pinEventOf line level)
  | error _ => exact ⟨illegalEffect, .inl rfl, rfl⟩

/-- Settles O11: the command completes with an effect, which gives one response; the step takes it off the port. -/
theorem oneResponsePerCommand : Obligations.OneResponsePerCommand := by
  intro s cmd v rest hok hp
  obtain ⟨e, he, hserve⟩ := serveCommand_eq_commit cmd v { s with port := rest }
  obtain ⟨ops, r, hext⟩ := commit_extends he
  have hstep := (step_cons hok hp).trans hserve
  obtain ⟨-, hport⟩ := step_conf_port hstep
  exact ⟨_, r, hstep, hext.responses, by rw [hport, hp, List.tail_cons]⟩

/-! ## A pin event at the port (R54, R55) -/

theorem toNat_and_identifier (byte : PinByte) : (byte &&& 0x7F).toNat = (byte.extractLsb' 0 7).toNat := by
  rw [BitVec.toNat_and, BitVec.extractLsb'_toNat]
  exact Nat.and_two_pow_sub_one_eq_mod byte.toNat 7

/-- The decoder knows the identifiers 1 to 4 and no other. -/
theorem decodePinEvent_isOk_iff (byte : PinByte) :
    (decodePinEvent byte).isOk = true ↔ (byte &&& 0x7F).toNat ∈ [1, 2, 3, 4] := by
  rw [toNat_and_identifier]
  unfold decodePinEvent
  split <;> simp_all [Except.isOk, Except.toBool]

/-- Settles O9: by the decoder on pin-event bytes; a byte it knows is served, and any other refused. -/
theorem unknownPinEventIsRefused : Obligations.UnknownPinEventIsRefused := by
  intro s byte rest hok hp
  rw [step_cons hok hp, ← decodePinEvent_isOk_iff]
  refine ⟨fun h => ?_, fun h => serve_next_of_known (r := .pinEvent byte) h _⟩
  simp only [serve, servePinEvent]
  cases hd : decodePinEvent byte with
  | ok i => exact absurd (by rw [hd]; rfl) h
  | error _ => rfl

/-- Settles O20: the byte decodes to the pin event of its line and level. -/
theorem pinEventBytes : Obligations.PinEventBytes := by
  intro line level s rest byte hok hbyte
  obtain rfl : byte = pinByte (lineId line) level := by
    rw [hbyte]
    cases line <;> cases level <;> rfl
  refine ⟨rfl, rfl, fun hp => ?_⟩
  rw [step_cons hok hp, serve_of_decodeRequest (fun _ _ _ => Request.noConfusion) (decodeRequest_pinByte line level)]

theorem pinSet_frame (line : Line) (level : Bool) (s : State) :
    OpsFrame s (pinSet line level s).1 [.set line level] := by
  rcases pinSet_cases line level s with ⟨-, e⟩ | ⟨_, -, e⟩ <;> rw [e]
  · exact setSucceeds_frame line level _ s
  · exact setFails_frame line level _ s

theorem exec_pinEventOf (line : Line) (level : Bool) (s : State) :
    exec (pinEventOf line level) s = .next (pinSet line level s).1 := by
  cases line <;> rfl

/-- Settles O60: a pin event is its one operation, failed or not, and an operation gives no response. -/
theorem pinEventsGiveNoResponse : Obligations.PinEventsGiveNoResponse := by
  intro line level s
  have frame := pinSet_frame line level s
  exact ⟨_, exec_pinEventOf line level s, frame.responses, ⟨frame.trace, frame.drawn, frame.draws⟩,
    ⟨frame.slots, frame.cfg⟩, frame.conf, frame.port⟩

/-! ## Assembly (R57, R58) -/

/-- A line whose checked operand, a slot or a `VALUE`, fits assembles to its instruction. -/
theorem assemble_of_operand {α : Type} {o : Option α} {x : α} (ho : o = some x) {line : Asm} (f : α → Instr)
    (hline : asmInstr line = o.map f) (hw : (f x).wf = true) : assemble line = some (f x) :=
  assemble_of_wf (by rw [hline, ho, Option.map_some]) hw

/-- A line assembles to nothing when its checked operand does not fit, or when no instruction can hold the other one. -/
theorem assemble_none_of_operand {α : Type} {o : Option α} {line : Asm} (f : α → Instr)
    (h : o = none ∨ ∀ x, (f x).wf = false) (hline : asmInstr line = o.map f) : assemble line = none := by
  rcases h with rfl | hw
  · exact assemble_of_none hline
  · cases o with
    | none => exact assemble_of_none hline
    | some x => exact assemble_of_not_wf hline (hw x)

theorem wf_of_assemble {line : Asm} {i : Instr} (h : assemble line = some i) : i.wf = true := by
  obtain ⟨-, hw⟩ := Option.filter_eq_some_iff.mp h
  exact hw

/-- Settles O21: a line is its instruction where its operands fit and nothing where one does not, and only a well-formed
instruction passes, which O16 decodes. -/
theorem assembledLinesDecode : Obligations.AssembledLinesDecode := by
  refine ⟨fun q n b v hn => ?_, fun p n v b count state => ⟨fun h => ?_, fun hp => ?_, fun h => ?_, fun hv => ?_,
    fun hn => ?_⟩, fun line i h => ⟨wf_of_assemble h, decodeOfEncode i (wf_of_assemble h)⟩⟩
  · have fits : fitsA n = true := fitsA_of_lt hn
    have slot := fun {line} => assemble_of_operand (asmSlot_val q) (line := line)
    have value := fun {line} => assemble_of_operand (asmValue_toNat v) (line := line)
    exact ⟨slot (.pnew · n b) rfl fits, slot (.pget · n) rfl fits, slot (.pset · n b) rfl fits,
      slot (.prol · n) rfl fits, slot (.prol · 1) rfl rfl, slot (.pror · n) rfl fits, slot (.pror · 1) rfl rfl,
      slot .praw rfl rfl, rfl, rfl, rfl, value (.cshift · n) rfl fits, value .cwrite rfl rfl, assemble_of_wf rfl fits,
      slot (.lnewpat · b) rfl rfl, slot (.lnewpat · false) rfl rfl, slot .lset rfl rfl, rfl, rfl, rfl,
      slot (.pset · n true) rfl fits, slot (.pset · n false) rfl fits⟩
  · have nothing {line : Asm} (f : Slot → Instr) (hw : ∀ q, (f q).wf = fitsA n) :
        asmInstr line = (asmSlot p).map f → assemble line = none :=
      assemble_none_of_operand f (h.imp asmSlot_none fun hn q => (hw q).trans (fitsA_of_ge hn))
    exact ⟨nothing (.pnew · n b) (fun _ => rfl) rfl, nothing (.pget · n) (fun _ => rfl) rfl,
      nothing (.pset · n b) (fun _ => rfl) rfl, nothing (.prol · n) (fun _ => rfl) rfl,
      nothing (.pror · n) (fun _ => rfl) rfl, nothing (.pset · n true) (fun _ => rfl) rfl,
      nothing (.pset · n false) (fun _ => rfl) rfl⟩
  · have nothing {line : Asm} (f : Slot → Instr) : asmInstr line = (asmSlot p).map f → assemble line = none :=
      assemble_none_of_operand f (.inl (asmSlot_none hp))
    exact ⟨nothing _ rfl, nothing _ rfl, nothing _ rfl, nothing _ rfl, nothing _ rfl⟩
  · exact assemble_none_of_operand (.cshift · n) (h.imp asmValue_none fun hn _ => fitsA_of_ge hn) rfl
  · exact assemble_none_of_operand .cwrite (.inl (asmValue_none hv)) rfl
  · exact assemble_of_not_wf rfl (fitsA_of_ge hn)

/-- Settles O22: the assembler run on each line. -/
theorem assemblyTextSamples : Obligations.AssemblyTextSamples := by
  unfold Obligations.AssemblyTextSamples
  decide

/-! ## Responses (R50, R102) -/

/-- The response `r` that `i` gives in the state `s` has a status of its row, and its fields are set only as R50 says. -/
structure AsTabled (i : Instr) (s : State) (r : Response) : Prop where
  status : r.status ∈ tableStatuses i
  result : r.status ≠ .ok → r.result = 0
  info : r.status ≠ .rangeError → r.infoIndex = 0 ∧ r.infoWidth = 0
  unsetIo : r.status ≠ .backendIO → r.ioOp = none ∧ r.ioDetail = none
  failure : r.status = .backendIO → ∃ k e, r.ioOp = some k ∧ r.ioDetail = some e ∧ FirstFailure s k e

theorem asTabled_okResponse {i : Instr} (h : Status.ok ∈ tableStatuses i) (s : State) (v : Word) :
    AsTabled i s (okResponse v) where
  status := h
  result := fun hne => absurd rfl hne
  info := fun _ => ⟨rfl, rfl⟩
  unsetIo := fun _ => ⟨rfl, rfl⟩
  failure := nofun

theorem ErrorOf.asTabled {i : Instr} {r : Response} (h : ErrorOf i r) (s : State) : AsTabled i s r where
  status := h.status
  result := fun _ => h.result
  info := h.info
  unsetIo := fun _ => h.io
  failure := fun hio => absurd hio h.notIO

theorem asTabled_backendResponse {i : Instr} {s : State} {k : Nat} {e : BackendError}
    (h : Status.backendIO ∈ tableStatuses i) (hfirst : FirstFailure s k e) : AsTabled i s (backendResponse k e) where
  status := h
  result := fun _ => rfl
  info := fun _ => ⟨rfl, rfl⟩
  unsetIo := fun hne => absurd rfl hne
  failure := fun _ => ⟨k, e, rfl, rfl, hfirst⟩

/-- An instruction gives no response, if it is a pin event, or one that is as tabled. -/
theorem exec_responses {i : Instr} {s t : State} (h : exec i s = .next t) :
    t.responses = s.responses ∨ ∃ r, AsTabled i s r ∧ t.responses = s.responses ++ [r] := by
  rcases exec_cases i s with ⟨line, level, -, e⟩ | ⟨r, hr, e⟩ | ⟨u, v, hw, hok, -, -, e⟩ | ⟨ops, -, hok, hio, -, -, e⟩ <;>
    rw [e] at h <;> cases h
  · exact .inl (pinSet_frame line level s).responses
  · exact .inr ⟨r, hr.asTabled s, rfl⟩
  · exact .inr ⟨_, asTabled_okResponse hok s v, (hw.toExtends.respond _).responses⟩
  · rcases issueAll_cases ops s with ⟨-, t, v, -, hf, e⟩ | ⟨k, b, -, hfirst, t, -, hf, e⟩ <;> rw [e]
    · exact .inr ⟨_, asTabled_okResponse hok s v, (hf.toExtends.respond _).responses⟩
    · exact .inr ⟨_, asTabled_backendResponse hio hfirst, (hf.toExtends.respond _).responses⟩

/-- Settles O51: the response of an instruction is the one that everything it can do gives. -/
theorem statusesAsTabled : Obligations.StatusesAsTabled := by
  refine ⟨by decide, fun i s t r h hr => ?_⟩
  rcases exec_responses h with hnone | ⟨r', htable, hr'⟩
  · have none_given : s.responses = s.responses ++ [r] := hnone.symm.trans hr
    simp at none_given
  · obtain rfl : r' = r := by simpa using hr'.symm.trans hr
    exact ⟨htable.status, htable.result, htable.info, htable.unsetIo, htable.failure⟩

end Sys2Proof.Machine
end

section
/-! The Pattern commands (41_pattern.md): two words compared light by light, the laws of rotation on words, what PNEW answers,
what any Pattern command may do, and the statements R61 to R70. -/

namespace Sys2Proof.Machine

/-! ## Words light by light -/

theorem lightOn_eq_getLsbD (b : Word) (i : Nat) : lightOn b i = b.getLsbD i := BitVec.testBit_toNat b

/-- Two words that keep the invariant at one width are the same when their lights below the width are. -/
theorem bits_ext_of_wf {pat : Pattern} {a b : Word} (ha : Pattern.wf { pat with bits := a })
    (hb : Pattern.wf { pat with bits := b }) (h : ∀ i < pat.width, lightOn a i = lightOn b i) : a = b := by
  refine word_ext_of_lightOn fun i => ?_
  by_cases hi : i < pat.width
  · exact h i hi
  · exact (lightOn_of_wf_ge ha (Nat.not_lt.mp hi)).trans (lightOn_of_wf_ge hb (Nat.not_lt.mp hi)).symm

/-- Every light below the width is where a rotation by `a` moves some light. -/
theorem exists_add_mod_eq {w j : Nat} (a : Nat) (hj : j < w) : ∃ i < w, (i + a) % w = j := by
  have hc : a % w < w := Nat.mod_lt a (by omega)
  refine ⟨(j + (w - a % w)) % w, Nat.mod_lt _ (by omega), ?_⟩
  calc ((j + (w - a % w)) % w + a) % w = (j + (w - a % w) + a % w) % w := by simp
    _ = (j + w) % w := by rw [Nat.add_assoc, Nat.sub_add_cancel hc.le]
    _ = j := by rw [Nat.add_mod_right, Nat.mod_eq_of_lt hj]

/-! ## The laws of rotation (R69) -/

theorem rotateRight_rotateLeft {pat : Pattern} (h : pat.wf) (a : Nat) :
    rotateRight { pat with bits := rotateLeft pat a } a = pat.bits :=
  bits_ext_of_wf (wf_rotateRight (wf_rotateLeft h a) a) h fun i hi =>
    (lightOn_rotateRight (wf_rotateLeft h a) a i hi).trans (lightOn_rotateLeft h a i hi)

theorem rotateLeft_rotateRight {pat : Pattern} (h : pat.wf) (a : Nat) :
    rotateLeft { pat with bits := rotateRight pat a } a = pat.bits := by
  refine bits_ext_of_wf (wf_rotateLeft (wf_rotateRight h a) a) h fun j hj => ?_
  obtain ⟨i, hi, rfl⟩ := exists_add_mod_eq a hj
  exact (lightOn_rotateLeft (wf_rotateRight h a) a i hi).trans (lightOn_rotateRight h a i hi)

theorem rotateLeft_mod (pat : Pattern) (a : Nat) : rotateLeft pat (a % pat.width) = rotateLeft pat a := by
  simp only [rotateLeft, rotateCount, Nat.mod_mod]

/-- A rotation right by `c` is the rotation left by the rest of the circle. -/
theorem rotateRight_eq_rotateLeft {pat : Pattern} (h : pat.wf) {c : Nat} (hc : c ≤ pat.width) :
    rotateRight pat c = rotateLeft pat (pat.width - c) := by
  refine bits_ext_of_wf (wf_rotateRight h c) (wf_rotateLeft h _) fun j hj => ?_
  obtain ⟨i, hi, rfl⟩ := exists_add_mod_eq (pat.width - c) hj
  have back : ((i + (pat.width - c)) % pat.width + c) % pat.width = i := by
    rw [Nat.mod_add_mod, Nat.add_assoc, Nat.sub_add_cancel hc, Nat.add_mod_right, Nat.mod_eq_of_lt hi]
  rw [lightOn_rotateLeft h _ i hi, lightOn_rotateRight h c _ hj, back]

theorem rotateRight_width {pat : Pattern} (h : pat.wf) : rotateRight pat pat.width = pat.bits := by
  refine bits_ext_of_wf (wf_rotateRight h _) h fun i hi => ?_
  rw [lightOn_rotateRight h _ i hi, Nat.add_mod_right, Nat.mod_eq_of_lt hi]

theorem rotateLeft_width {pat : Pattern} (h : pat.wf) : rotateLeft pat pat.width = pat.bits := by
  refine bits_ext_of_wf (wf_rotateLeft h _) h fun i hi => ?_
  have full := lightOn_rotateLeft h pat.width i hi
  rwa [Nat.add_mod_right, Nat.mod_eq_of_lt hi] at full

theorem map_add_mod_range (w a : Nat) : (List.range w).map (fun i => (i + a) % w) = (List.range w).rotate a := by
  refine List.ext_getElem (by simp) fun k _ _ => ?_
  simp [List.getElem_rotate]

theorem lightsOn_rotateRight {pat : Pattern} (h : pat.wf) (a : Nat) :
    lightsOn { pat with bits := rotateRight pat a } = lightsOn pat := by
  calc lightsOn { pat with bits := rotateRight pat a }
      = (List.range pat.width).countP ((lightOn pat.bits ·) ∘ fun i => (i + a) % pat.width) :=
        List.countP_congr fun i hi => by
          simp [lightOn_rotateRight h a i (List.mem_range.mp hi)]
    _ = ((List.range pat.width).rotate a).countP (lightOn pat.bits ·) := by
        rw [← List.countP_map, map_add_mod_range]
    _ = lightsOn pat := (List.rotate_perm _ a).countP_eq _

theorem lightsOn_rotateLeft {pat : Pattern} (h : pat.wf) (a : Nat) :
    lightsOn { pat with bits := rotateLeft pat a } = lightsOn pat := by
  have kept := lightsOn_rotateRight (wf_rotateLeft h a) a
  rw [rotateRight_rotateLeft h a] at kept
  exact kept.symm

/-! ## What the commands answer -/

theorem exec_pnew_ok {w : Nat} (h1 : 1 ≤ w) (h64 : w ≤ 64) (p : Slot) (on : Bool) (s : State) :
    exec (.pnew p w on) s =
      .next (respond (writeSlot s p { width := w, bits := filled w on }) (okResponse 0)) := by
  have legal : ¬ (w = 0 ∨ w > Config.wordBits) := by rw [Config.wordBits]; omega
  show Host.Outcome.next (commit (pnewEffect p w on s) s) = _
  rw [pnewEffect, if_neg legal]
  rfl

theorem exec_pnew_invalid {w : Nat} (h : w = 0 ∨ w > Config.wordBits) (p : Slot) (on : Bool) (s : State) :
    exec (.pnew p w on) s = .next (respond s (errorResponse .invalidWidth)) := by
  show Host.Outcome.next (commit (pnewEffect p w on s) s) = _
  rw [pnewEffect, if_pos h]
  rfl

theorem readSlot_of_prol {s t : State} {p : Slot} {pat : Pattern} {a : Nat} (hp : readSlot s p = some pat)
    (ht : exec (.prol p a) s = .next t) : readSlot t p = some { pat with bits := rotateLeft pat a } := by
  rw [exec_prol_some hp] at ht
  cases ht
  rw [readSlot_respond, readSlot_writeSlot_same]

theorem readSlot_of_pror {s t : State} {p : Slot} {pat : Pattern} {a : Nat} (hp : readSlot s p = some pat)
    (ht : exec (.pror p a) s = .next t) : readSlot t p = some { pat with bits := rotateRight pat a } := by
  rw [exec_pror_some hp] at ht
  cases ht
  rw [readSlot_respond, readSlot_writeSlot_same]

theorem readSlot_of_pset {s t : State} {p : Slot} {pat : Pattern} {index : Nat} {value : Bool}
    (hp : readSlot s p = some pat) (hi : index < pat.width) (ht : exec (.pset p index value) s = .next t) :
    readSlot t p = some { pat with bits := setLight pat index value } := by
  rw [exec_pset_some hp, if_pos hi] at ht
  cases ht
  rw [readSlot_respond, readSlot_writeSlot_same]

/-- An instruction that only gives the response `r` changes nothing else. -/
theorem onlyResponds_of_exec {i : Instr} {s : State} {r : Response} (h : exec i s = .next (respond s r)) :
    ∃ t, exec i s = .next t ∧ OnlyResponds s t r := ⟨_, h, rfl⟩

theorem WriteOf.samePins {i : Instr} {s t : State} (h : WriteOf i s t) : SamePins s t := by
  rcases h with rfl | ⟨p, pat, rfl, -⟩ | ⟨n, -, rfl⟩ <;> exact ⟨rfl, rfl, rfl, rfl, rfl⟩

/-- A Pattern command gives one response, not BackendIO, after a write or none (R61). -/
theorem exec_of_isPatternCommand {i : Instr} (hi : isPatternCommand i = true) (s : State) :
    ∃ u r, WriteOf i s u ∧ r.status ≠ .backendIO ∧ exec i s = .next (respond u r) := by
  rcases exec_cases i s with ⟨line, level, rfl, -⟩ | ⟨r, hr, e⟩ | ⟨u, v, hw, -, -, -, e⟩ | ⟨ops, -, -, -, -, hno, -⟩
  · cases line <;> cases hi
  · exact ⟨s, r, .inl rfl, hr.notIO, e⟩
  · exact ⟨u, okResponse v, hw, Status.noConfusion, e⟩
  · rw [hi] at hno
    cases hno

/-! ## The statements -/

/-- Settles O23: the two outcomes of the width check. -/
theorem pnewConstructsPattern : Obligations.PnewConstructsPattern := by
  refine fun s p w on => ⟨fun h1 h64 => ?_, fun h => onlyResponds_of_exec (exec_pnew_invalid h p on s)⟩
  obtain ⟨hread, hframe⟩ := writeSlot_respond s p { width := w, bits := filled w on } (okResponse 0)
  exact ⟨_, _, exec_pnew_ok h1 h64 p on s, hread, rfl, lightOn_filled w on h64, hframe⟩

/-- Settles O24: the slot check, then the range check. -/
theorem pgetReadsOneLight : Obligations.PgetReadsOneLight := by
  refine fun s p index => ⟨fun h => onlyResponds_of_exec (exec_pget_none h), fun pat hp => ?_⟩
  have e := exec_pget_some (index := index) hp
  refine ⟨fun hi => onlyResponds_of_exec ?_, fun hi => onlyResponds_of_exec (r := rangeResponse index pat.width) ?_⟩
  · rw [e, if_pos hi, bitWord_eq]
  · rw [e, if_neg (Nat.not_lt.mpr hi)]

/-- Settles O25: the slot check, the range check, and the one light written. -/
theorem psetWritesOneLight : Obligations.PsetWritesOneLight := by
  refine fun s p index value => ⟨fun h => onlyResponds_of_exec (exec_pset_none h), fun pat hp => ?_⟩
  have e := exec_pset_some (index := index) (value := value) hp
  refine ⟨fun hwf hi => ?_, fun hi => onlyResponds_of_exec (r := rangeResponse index pat.width) ?_⟩
  · rw [if_pos hi] at e
    obtain ⟨hread, hframe⟩ := writeSlot_respond s p { pat with bits := setLight pat index value } (okResponse 0)
    exact ⟨_, _, e, hread, wf_setLight hwf value hi, rfl, lightOn_setLight hwf value hi, hframe⟩
  · rw [e, if_neg (Nat.not_lt.mpr hi)]

/-- Settles O26: the slot check, then the rotation light by light. -/
theorem prolRotatesLeft : Obligations.ProlRotatesLeft := by
  refine fun s p a => ⟨fun h => onlyResponds_of_exec (exec_prol_none h), fun pat hp hwf => ?_⟩
  obtain ⟨hread, hframe⟩ := writeSlot_respond s p { pat with bits := rotateLeft pat a } (okResponse 0)
  exact ⟨_, _, exec_prol_some hp, hread, wf_rotateLeft hwf a, rfl, lightOn_rotateLeft hwf a, hframe⟩

/-- Settles O27: the slot check, then the rotation light by light. -/
theorem prorRotatesRight : Obligations.ProrRotatesRight := by
  refine fun s p a => ⟨fun h => onlyResponds_of_exec (exec_pror_none h), fun pat hp hwf => ?_⟩
  obtain ⟨hread, hframe⟩ := writeSlot_respond s p { pat with bits := rotateRight pat a } (okResponse 0)
  exact ⟨_, _, exec_pror_some hp, hread, wf_rotateRight hwf a, rfl, lightOn_rotateRight hwf a, hframe⟩

/-- Settles O28: the result is the slot's word, which has no light at or above the width. -/
theorem prawReadsAllLights : Obligations.PrawReadsAllLights := by
  refine fun s p => ⟨fun h => onlyResponds_of_exec (exec_praw_none h), fun pat hp hwf => ?_⟩
  refine ⟨_, pat.bits, exec_praw_some hp, rfl, fun i _ => (lightOn_eq_getLsbD pat.bits i).symm, fun i hi => ?_⟩
  exact (lightOn_eq_getLsbD pat.bits i).symm.trans (lightOn_of_wf_ge hwf hi)

/-- Settles O29: the slot check of each command, and that a Pattern command only writes and responds. -/
theorem emptySlotGivesNoPattern : Obligations.EmptySlotGivesNoPattern := by
  refine ⟨fun s p a f h i hi => onlyResponds_of_exec ?_, fun i s t hi ht => ?_⟩
  · simp only [List.mem_cons, List.not_mem_nil, or_false] at hi
    obtain rfl | rfl | rfl | rfl | rfl := hi
    · exact exec_pget_none h
    · exact exec_pset_none h
    · exact exec_prol_none h
    · exact exec_pror_none h
    · exact exec_praw_none h
  · have hcfg : t.cfg = s.cfg := exec_cfg ht fun n e => by subst e; cases hi
    obtain ⟨u, r, hw, hr, e⟩ := exec_of_isPatternCommand hi s
    rw [e] at ht
    cases ht
    exact ⟨hw.samePins, hcfg, hw.sameInputs, r, (hw.toExtends.respond r).responses, hr⟩

/-- Settles O30: each command is its operation on the word, and the laws are those of the words. -/
theorem rotationLaws : Obligations.RotationLaws := by
  intro s p pat hp hwf
  refine ⟨fun a t u ht hu => ?_, fun a t u ht hu => ?_, fun t ht => ?_, fun t ht => ?_, fun a => ?_, fun c _ hc => ?_,
    fun i f t u hi ht hu => ?_, fun a t pat' ht hp' => ?_, fun a t pat' ht hp' => ?_⟩
  · rw [readSlot_of_pror (readSlot_of_prol hp ht) hu, rotateRight_rotateLeft hwf]
  · rw [readSlot_of_prol (readSlot_of_pror hp ht) hu, rotateLeft_rotateRight hwf]
  · rw [readSlot_of_prol hp ht, rotateLeft_width hwf]
  · rw [readSlot_of_pror hp ht, rotateRight_width hwf]
  · rw [exec_prol_some hp, exec_prol_some hp, rotateLeft_mod]
  · rw [exec_pror_some hp, exec_prol_some hp, rotateRight_eq_rotateLeft hwf hc.le]
  · rw [exec_pget_some (readSlot_of_pset hp hi ht), if_pos hi, lightOn_setLight hwf f hi, if_pos rfl, bitWord_eq] at hu
    cases hu
    rfl
  · rw [readSlot_of_prol hp ht] at hp'
    cases hp'
    exact lightsOn_rotateLeft hwf a
  · rw [readSlot_of_pror hp ht] at hp'
    cases hp'
    exact lightsOn_rotateRight hwf a

/-- Settles O31: the rendering's characters, each read at its position. -/
theorem renderIsMostSignificantFirst : Obligations.RenderIsMostSignificantFirst := by
  refine fun s p => ⟨fun h => by rw [render, h, Option.map_none], fun pat hp => ?_⟩
  refine ⟨renderChars pat, by rw [render, hp, Option.map_some], by simp [renderChars], fun k hk => ?_⟩
  simp [renderChars, hk, lightChar, lightOn_eq_getLsbD]

end Sys2Proof.Machine
end

section
/-! The Chain commands (42_chain.md R76 to R86): the one operation of CEN, CDIS and CISEN, the protocol of CSHIFT, where its
bits land, what no Chain command reads or writes, and that enabling and shifting do not touch each other. -/

namespace Sys2Proof.Machine

/-! ## How a sequence of pin operations ends a command -/

/-- What a response after the operations `ops` leaves to see: the operations, the response, and the rest as before. -/
theorem OpsFrame.responded {s t : State} {ops : List PinOp} (h : OpsFrame s t ops) (r : Response) :
    Issued s (respond t r) ops ∧ Responded s (respond t r) r ∧ SameStore s (respond t r) ∧
      SameInputs s (respond t r) :=
  ⟨⟨h.trace, h.drawn, h.draws⟩, by rw [Responded, respond_responses, h.responses], ⟨h.slots, h.cfg⟩, h.conf, h.port⟩

/-- A command's operations stop at the first that fails, with its position and its error (R108). -/
theorem issueAll_stops {ops : List PinOp} {s : State} {k : Nat} {e : BackendError} (hk : k < ops.length)
    (h : FirstFailure s k e) :
    ∃ t, runPins ops 0 0 s = .failed t k e ∧ OpsFrame s t (ops.take (k + 1)) ∧
      issueAll ops s = respond t (backendResponse k e) := by
  obtain ⟨t, ht, hf⟩ := runPins_stops 0 0 hk h
  rw [Nat.zero_add] at ht
  exact ⟨t, ht, hf, issueAll_failed ht⟩

/-! ## CEN, CDIS and CISEN -/

/-- With the control line driven, an output shows `Q` or nothing (R23). -/
theorem visible_of_control_driven {s : State} {k : Nat} {q : Level} {level : Bool} (hq : s.chain.Q[k]? = some q)
    (hc : s.pins.control = levelOf level) : visible s k = if level then [.stored q] else [.blank] := by
  unfold visible
  rw [hq, hc]
  cases level <;> rfl

section
variable {i : Instr} {level : Bool} {s : State} (hi : exec i s = .next (issueAll [.set .control level] s))
include hi

/-- The command of one operation on the control line, without a failure: no edge moves the device's registers (R110). -/
theorem exec_setControl_ok (h : NoFailure s 1) :
    ∃ t, exec i s = .next t ∧ Issued s t [.set .control level] ∧ Responded s t (okResponse 0) ∧
      t.pins = { s.pins with control := levelOf level } ∧
      t.chain.seen = { s.chain.seen with control := levelOf level } ∧ t.chain.S = s.chain.S ∧ t.chain.Q = s.chain.Q ∧
      SameStore s t ∧ SameInputs s t ∧
      ∀ k q, s.chain.Q[k]? = some q → visible t k = if level then [.stored q] else [.blank] := by
  rw [issueAll_set_ok h] at hi
  obtain ⟨issued, responded, store, inputs⟩ :=
    (setSucceeds_frame .control level (drawAt s 0) s).responded (okResponse 0)
  have hS : (setSucceeds .control level (drawAt s 0) s).chain.S = s.chain.S := chainDriven_S (.inl nofun)
  have hQ : (setSucceeds .control level (drawAt s 0) s).chain.Q = s.chain.Q := chainDriven_Q (.inl nofun)
  exact ⟨_, hi, issued, responded, rfl, chainReacts_seen _ _ _ _ _, hS, hQ, store, inputs,
    fun k q hq => visible_of_control_driven ((congrArg (·[k]?) hQ).trans hq) rfl⟩

/-- The same command when its operation fails (R108). -/
theorem exec_setControl_failed {e : BackendError} (h : FirstFailure s 0 e) :
    ∃ t, exec i s = .next t ∧ Issued s t [.set .control level] ∧ Responded s t (backendResponse 0 e) ∧
      t.pins = { s.pins with control := .x } ∧ SameStore s t ∧ SameInputs s t := by
  rw [issueAll_set_failed h] at hi
  obtain ⟨issued, responded, store, inputs⟩ :=
    (setFails_frame .control level (drawAt s 0) s).responded (backendResponse 0 e)
  exact ⟨_, hi, issued, responded, rfl, store, inputs⟩

end

/-- Settles O33: both commands are one operation on the control line, which succeeds or fails. -/
theorem enableAndDisable : Obligations.EnableAndDisable := fun _ =>
  ⟨fun hno => ⟨exec_setControl_ok rfl hno, exec_setControl_ok rfl hno⟩,
    fun _ he => ⟨exec_setControl_failed rfl he, exec_setControl_failed rfl he⟩⟩

/-- A CISEN whose read fails (R107, R108). -/
theorem exec_cisen_failed {s : State} {e : BackendError} (h : FirstFailure s 0 e) :
    exec .cisen s = .next (respond (issueOp s .getControl) (backendResponse 0 e)) :=
  congrArg Host.Outcome.next (issueAll_get_failed h)

/-- Settles O34: the one operation reads the line and leaves it and the device alone. -/
theorem cisenReadsBack : Obligations.CisenReadsBack := by
  intro s
  have frame := issueOp_frame s .getControl
  refine ⟨fun hno => ?_, fun e he => ?_⟩
  · have hexec := exec_cisen_ok hno
    rw [bitWord_eq] at hexec
    obtain ⟨issued, responded, store, inputs⟩ := frame.responded _
    refine ⟨_, _, hexec, issued, responded, fun hl hc => ?_, fun hl hc => ?_, rfl, rfl, store, inputs⟩ <;>
      rw [show s.conf.readback = .loopback from hl, hc] <;> rfl
  · obtain ⟨issued, responded, store, inputs⟩ := frame.responded (backendResponse 0 e)
    exact ⟨_, exec_cisen_failed he, issued, responded, rfl, rfl, store, inputs⟩

/-! ## CSHIFT and CWRITE -/

/-- The protocol of R79, written out: iteration `i` sends bit `i` of `VALUE`. -/
theorem shiftOps_eq (value : Word) (a : Nat) :
    shiftOps value a = [PinOp.set .latch false] ++
      (List.range a).flatMap (fun i => [.set .clock false, .set .data (value.getLsbD i), .set .clock true]) ++
      [.set .latch true, .set .latch false] := by
  rw [shiftOps, shiftIterations_eq]
  rfl

/-- The bits of `VALUE` at and above the count are never sent (R80). -/
theorem shiftOps_congr {value other : Word} {a : Nat} (h : ∀ j < a, other.getLsbD j = value.getLsbD j) :
    shiftOps other a = shiftOps value a := by
  rw [shiftOps_eq, shiftOps_eq]
  congr 2
  exact List.flatMap_congr fun i hi => by rw [h i (List.mem_range.mp hi)]

/-- A CSHIFT whose operation `k` is the first that fails (R79, R108). -/
theorem exec_cshift_failed {s : State} {value : Word} {a k : Nat} {e : BackendError} (hk : k < 3 + 3 * a)
    (h : FirstFailure s k e) :
    ∃ t, runPins (shiftOps value a) 0 0 s = .failed t k e ∧ OpsFrame s t ((shiftOps value a).take (k + 1)) ∧
      exec (.cshift value a) s = .next (respond t (backendResponse k e)) := by
  obtain ⟨t, hr, hf, ht⟩ := issueAll_stops ((shiftOps_length value a).symm ▸ hk) h
  exact ⟨t, hr, hf, congrArg Host.Outcome.next ht⟩

/-- Settles O36: the operations are the protocol's, and the command completes or stops at the first failure. -/
theorem cshiftIssuesTheProtocol : Obligations.CshiftIssuesTheProtocol := by
  intro s value a ops
  have hops : shiftOps value a = ops := shiftOps_eq value a
  rw [← hops]
  refine ⟨shiftOps_length value a, fun hno => ?_, fun k e hk he => ?_⟩
  · obtain ⟨t, ht, hf, -⟩ := exec_cshift_ok hno
    exact ⟨_, ht, hf.responded _⟩
  · obtain ⟨t, -, hf, ht⟩ := exec_cshift_failed hk he
    exact ⟨_, ht, hf.responded _⟩

/-- Settles O37: CWRITE is that CSHIFT, so it completes as one, and its operations depend on the bits sent alone. -/
theorem cwriteIsFullShift : Obligations.CwriteIsFullShift := by
  intro s value
  refine ⟨exec_cwrite_eq_cshift value s, fun hno => ?_, fun other h => ?_⟩
  · obtain ⟨t, ht, hf, -⟩ := exec_cshift_ok (value := value) hno
    obtain ⟨⟨htrace, -⟩, responded, store, inputs⟩ := hf.responded (okResponse 0)
    refine ⟨_, ht, responded, ?_, store, inputs⟩
    rw [htrace, List.length_append, shiftOps_length]
  · exact congrArg (fun ops => Host.Outcome.next (issueAll ops s)) (shiftOps_congr h)

/-! ## Where the bits land -/

section
variable {S : List Level} {a n k : Nat} (v : Nat) (hk : k < n)
include hk

theorem getElem?_sentBits_append_of_lt (h : k < a) :
    ((sentBits v a ++ S).take n)[k]? = some (levelOf (v.testBit (a - 1 - k))) := by
  rw [List.getElem?_take_of_lt hk, List.getElem?_append_left (by rwa [sentBits_length]), sentBits_getElem? v a k h]

theorem getElem?_sentBits_append_of_le (h : a ≤ k) : ((sentBits v a ++ S).take n)[k]? = S[k - a]? := by
  rw [List.getElem?_take_of_lt hk, List.getElem?_append_right (by rwa [sentBits_length]), sentBits_length]

end

/-- After a completed CSHIFT `S` is the bits sent, the last one first, then the old stages, cut off at `CAPACITY` (R83). -/
theorem exec_cshift_stages {s : State} (hs : ChainWf s) {value : Word} {a : Nat} (hno : NoFailure s (3 + 3 * a)) :
    ∃ t, exec (.cshift value a) s = .next t ∧ ChainWf t ∧ t.chain.Q = t.chain.S ∧
      (∀ k, k < a → k < s.conf.capacity → t.chain.S[k]? = some (levelOf (value.getLsbD (a - 1 - k)))) ∧
      ∀ k, a ≤ k → k < s.conf.capacity → t.chain.S[k]? = s.chain.S[k - a]? := by
  obtain ⟨hlen, -⟩ := hs
  obtain ⟨t, ht, hf, -, hS, hQ⟩ := exec_cshift_ok (value := value) hno
  specialize hS hlen.le
  have hlen' : t.chain.S.length = t.conf.capacity := by
    rw [hS, hf.conf, List.length_take, List.length_append, hlen, Nat.min_eq_left (Nat.le_add_left _ _)]
  refine ⟨_, ht, ⟨hlen', hQ ▸ hlen'⟩, hQ, fun k hka hk => ?_, fun k hak hk => ?_⟩ <;> rw [respond_chain, hS]
  · exact getElem?_sentBits_append_of_lt _ hk hka
  · exact getElem?_sentBits_append_of_le _ hk hak

/-- Settles O39: by the stages CSHIFT leaves; with the count `CAPACITY` every stage holds a bit sent. -/
theorem shiftedBitsLand : Obligations.ShiftedBitsLand := by
  refine fun s hs => ⟨fun value a hno => exec_cshift_stages hs hno, fun value hno => ?_⟩
  obtain ⟨t, ht, -, hQ, hsent, -⟩ := exec_cshift_stages (value := value) hs hno
  exact ⟨t, ht, hQ, fun k hk => hsent k hk hk⟩

/-! ## The store is not read -/

/-- A Chain command issues pin operations which depend on its operands and the configuration parameters alone. -/
theorem exec_of_isChainCommand {i : Instr} (hi : isChainCommand i = true) :
    ∃ ops : Conf → List PinOp, ∀ s, exec i s = .next (issueAll (ops s.conf) s) := by
  cases i
  case cen => exact ⟨fun _ => [.set .control true], fun _ => rfl⟩
  case cdis => exact ⟨fun _ => [.set .control false], fun _ => rfl⟩
  case cisen => exact ⟨fun _ => [.getControl], fun _ => rfl⟩
  case cshift value a => exact ⟨fun _ => shiftOps value a, fun _ => rfl⟩
  case cwrite value => exact ⟨fun c => shiftOps value c.capacity, fun _ => rfl⟩
  all_goals cases hi

/-- A command's pin operations read neither the slots nor the configuration (R86). -/
theorem issueAll_withStore (slots : Vector (Option Pattern) 16) (cfg : Option Nat) (ops : List PinOp) (s : State) :
    issueAll ops { s with slots := slots, cfg := cfg } = { issueAll ops s with slots := slots, cfg := cfg } := by
  have run := runPins_map (fun s => { s with slots := slots, cfg := cfg }) (pinOp_withStore slots cfg) ops 0 0 s
  cases h : runPins ops 0 0 s with
  | completed t v => rw [issueAll_completed h, issueAll_completed (run.trans (congrArg _ h))]; rfl
  | failed t k e => rw [issueAll_failed h, issueAll_failed (run.trans (congrArg _ h))]; rfl

/-- Settles O40: a Chain command is a sequence of pin operations, which neither writes nor reads the store. -/
theorem chainCommandsIgnoreTheStore : Obligations.ChainCommandsIgnoreTheStore := by
  intro i s t hi h
  obtain ⟨ops, hexec⟩ := exec_of_isChainCommand hi
  rw [hexec] at h
  cases h
  obtain ⟨store, inputs⟩ := issueAll_store (ops s.conf) s
  refine ⟨store, inputs, fun slots cfg => ?_⟩
  rw [hexec, issueAll_withStore]

/-! ## Enabling and shifting -/

/-- Up to its last iteration CSHIFT does not drive the latch high (R79). -/
theorem latch_high_not_mem_take_shiftOps (value : Word) {a k : Nat} (hk : k < 1 + 3 * a) :
    .set .latch true ∉ (shiftOps value a).take (k + 1) := by
  have hlen : k + 1 ≤ ([PinOp.set .latch false] ++ shiftIterations a value.toNat).length := by
    rw [List.length_append, shiftIterations_length, List.length_singleton]
    omega
  rw [shiftOps, List.take_append_of_le_length hlen]
  refine mt List.mem_of_mem_take ?_
  simp [shiftIterations_eq, shiftBit]

/-- A CSHIFT that fails before its latch pulse leaves `Q` (R85). -/
theorem exec_cshift_failed_Q {s t : State} {value : Word} {a k : Nat} {e : BackendError} (hk : k < 1 + 3 * a)
    (he : FirstFailure s k e) (h : exec (.cshift value a) s = .next t) : t.chain.Q = s.chain.Q := by
  obtain ⟨u, hr, -, hu⟩ := exec_cshift_failed (value := value) (by omega : k < 3 + 3 * a) he
  rw [hu] at h
  cases h
  rw [← Nat.zero_add k] at hr
  exact (runPins_Q (latch_high_not_mem_take_shiftOps value hk) 0 0 s).2 u _ e (runPins_take hr)

/-- CEN and CDIS keep every line but control, with the registers that its edge moves (R85). -/
theorem exec_enable_lineKept {i : Instr} {s t : State} (hi : i = .cen ∨ i = .cdis) (h : exec i s = .next t) {line : Line}
    (hline : line ≠ .control) : LineKept line s t := by
  have hevent : ∀ level, i ≠ pinEventOf line level := by
    rcases hi with rfl | rfl <;> cases line <;> exact nofun
  rcases hi with rfl | rfl <;> exact exec_shiftLine_kept h hline nofun nofun nofun hevent

/-- Settles O41: by which lines each command drives, and that `Q` moves at latch high alone. -/
theorem enableIsIndependentOfShifting : Obligations.EnableIsIndependentOfShifting := by
  refine ⟨fun i s t hi h => ?_, fun s t value a h => ?_, fun s t value h => ?_,
    fun s t value a k e hk he h => exec_cshift_failed_Q hk he h⟩
  · have data : LineKept .data s t := exec_enable_lineKept hi h nofun
    have clock : LineKept .clock s t := exec_enable_lineKept hi h nofun
    have latch : LineKept .latch s t := exec_enable_lineKept hi h nofun
    exact ⟨data.record, clock.record, latch.record, clock.shift rfl, latch.store rfl⟩
  · exact (exec_control_kept h nofun nofun nofun nofun nofun).record
  · exact (exec_control_kept h nofun nofun nofun nofun nofun).record

end Sys2Proof.Machine
end

section
/-! The LightArray commands (43_lightarray.md R90 to R97): the configuration check that all but LCFG begin with, what
each command is once its checks are decided, and where a completed LSET puts the lights. -/

namespace Sys2Proof.Machine

/-! ## The configuration check -/

section
variable {i : Instr} {s : State} {rest : Nat → Effect} (hi : exec i s = .next (commit (whenConfigured s rest) s))
include hi

/-- On an unconfigured array the check ends the command (R90). -/
theorem onlyResponds_of_unconfigured (h : s.cfg = none) :
    ∃ t, exec i s = .next t ∧ OnlyResponds s t (errorResponse .notConfigured) := by
  rw [whenConfigured_none rest h] at hi
  exact onlyResponds_of_exec hi

/-- On a configured array the command is the rest of its rule. -/
theorem exec_of_configured {n : Nat} (h : s.cfg = some n) : exec i s = .next (commit (rest n) s) := by
  rw [hi, whenConfigured_some rest h]

end

/-- Settles O44: each of the five commands begins with the configuration check. -/
theorem unconfiguredGivesNotConfigured : Obligations.UnconfiguredGivesNotConfigured := by
  intro s p on h i hi
  simp only [List.mem_cons, List.not_mem_nil, or_false] at hi
  obtain rfl | rfl | rfl | rfl | rfl := hi <;> exact onlyResponds_of_unconfigured rfl h

/-! ## LCFG and LNEWPAT -/

theorem exec_lcfg_ok {s : State} {n : Nat} (h1 : 1 ≤ n) (hcap : n ≤ s.conf.capacity) :
    exec (.lcfg n) s = .next (respond { s with cfg := some n } (okResponse 0)) := by
  have legal : ¬ (n = 0 ∨ n > s.conf.capacity) := by omega
  show Host.Outcome.next (commit (lcfgEffect n s) s) = _
  rw [lcfgEffect, if_neg legal, commit_writes]

theorem exec_lcfg_invalid {s : State} {n : Nat} (h : n = 0 ∨ n > s.conf.capacity) :
    exec (.lcfg n) s = .next (respond s (errorResponse .configurationError)) := by
  show Host.Outcome.next (commit (lcfgEffect n s) s) = _
  rw [lcfgEffect, if_pos h, commit_raises]

/-- Settles O45: the two outcomes of the check of the count. -/
theorem lcfgConfigures : Obligations.LcfgConfigures := fun _ _ =>
  ⟨fun h1 hcap => ⟨_, exec_lcfg_ok h1 hcap, rfl, rfl, rfl, ⟨rfl, rfl, rfl, rfl, rfl⟩, rfl, rfl⟩,
    fun h => onlyResponds_of_exec (exec_lcfg_invalid h)⟩

theorem exec_lnewpat_configured {s : State} {n : Nat} (h : s.cfg = some n) (p : Slot) (on : Bool) :
    exec (.lnewpat p on) s =
      .next (respond (writeSlot s p { width := n, bits := filled n on }) (okResponse 0)) :=
  exec_of_configured (i := .lnewpat p on) rfl h

/-- Settles O46: the configured count is a legal width (R6, R14), so that the slot gets a Pattern of this width. -/
theorem lnewpatConstructsPattern : Obligations.LnewpatConstructsPattern := by
  refine fun s p on => ⟨onlyResponds_of_unconfigured rfl, fun n hn hconf hcfg => ?_⟩
  obtain ⟨h1, hcap⟩ := hcfg n hn
  have h64 : n ≤ 64 := hcap.trans hconf.2
  obtain ⟨hread, hframe⟩ := writeSlot_respond s p { width := n, bits := filled n on } (okResponse 0)
  exact ⟨_, _, exec_lnewpat_configured hn p on, hread, wf_filled on h1 h64, rfl, lightOn_filled n on h64, hframe⟩

/-! ## LSET -/

theorem exec_lset_noPattern {s : State} {p : Slot} {n : Nat} (hc : s.cfg = some n) (hp : readSlot s p = none) :
    exec (.lset p) s = .next (respond s (errorResponse .noPattern)) := by
  rw [exec_of_configured (i := .lset p) rfl hc, whenPattern_none _ hp, commit_raises]

theorem exec_lset_mismatch {s : State} {p : Slot} {pat : Pattern} {n : Nat} (hc : s.cfg = some n)
    (hp : readSlot s p = some pat) (hw : pat.width ≠ n) :
    exec (.lset p) s = .next (respond s (errorResponse .widthMismatch)) := by
  rw [exec_of_configured (i := .lset p) rfl hc, whenPattern_some _ hp, if_pos hw, commit_raises]

/-- Settles O47: the three checks in order; past them LSET is a CWRITE, hence a CSHIFT, which completes or stops. -/
theorem lsetChecksThenWrites : Obligations.LsetChecksThenWrites := by
  refine fun s p => ⟨onlyResponds_of_unconfigured rfl, fun n hn =>
    ⟨fun hp => onlyResponds_of_exec (exec_lset_noPattern hn hp), fun pat hp =>
      ⟨fun hw => onlyResponds_of_exec (exec_lset_mismatch hn hp hw), fun hw => ?_⟩⟩⟩
  subst hw
  have delegate := exec_lset_match hn hp
  obtain ⟨hshift, completes, -⟩ := cwriteIsFullShift s pat.bits
  refine ⟨delegate, fun hno => ?_, fun k e hk he => ?_⟩
  · obtain ⟨t, ht, responded, hlen, store, inputs⟩ := completes hno
    exact ⟨t, delegate.trans ht, responded, store, inputs, hlen⟩
  · obtain ⟨t, -, hf, ht⟩ := exec_cshift_failed (value := pat.bits) hk he
    obtain ⟨-, kept⟩ := hf.responded (backendResponse k e)
    exact ⟨_, (delegate.trans hshift).trans ht, kept⟩

/-- After a completed LSET stage `k` holds light `CAPACITY-1-k`, off at and above the Pattern's width (R83, R97). -/
theorem exec_lset_stages {s : State} {p : Slot} {pat : Pattern} (hs : ChainWf s) (hc : s.cfg = some pat.width)
    (hp : readSlot s p = some pat) (hno : NoFailure s (3 + 3 * s.conf.capacity)) :
    ∃ t, exec (.lset p) s = .next t ∧ Responded s t (okResponse 0) ∧ SameStore s t ∧
      t.pins.control = s.pins.control ∧ t.chain.Q = t.chain.S ∧
      ∀ k < s.conf.capacity, t.chain.S[k]? = some (levelOf (lightOn pat.bits (s.conf.capacity - 1 - k))) := by
  obtain ⟨-, completes, -⟩ := cwriteIsFullShift s pat.bits
  obtain ⟨t, ht, responded, -, store, -⟩ := completes hno
  obtain ⟨u, hu, hQ, hsent⟩ := (shiftedBitsLand s hs).2 pat.bits hno
  obtain rfl : t = u := Host.Outcome.next.inj (ht.symm.trans hu)
  have control := (exec_control_kept ht nofun nofun nofun nofun nofun).record
  refine ⟨t, (exec_lset_match hc hp).trans ht, responded, store, control, hQ, fun k hk => ?_⟩
  rw [hsent k hk, lightOn_eq_getLsbD, levelOf_eq]

/-- Settles O48: each light's stage read in the stages of a completed LSET, and what an output shows of `Q`. -/
theorem lsetPutsLightsInStages : Obligations.LsetPutsLightsInStages := by
  intro s p pat hs hc hp hno
  obtain ⟨t, ht, responded, store, control, hQ, hstage⟩ := exec_lset_stages hs.chain hc hp hno
  obtain ⟨-, hcap⟩ : 1 ≤ pat.width ∧ pat.width ≤ s.conf.capacity := hs.cfg pat.width hc
  have hlight : ∀ i < pat.width, t.chain.S[s.conf.capacity - 1 - i]? = some (levelOf (lightOn pat.bits i)) :=
    fun i hi => by
      rw [hstage _ (by omega), show s.conf.capacity - 1 - (s.conf.capacity - 1 - i) = i by omega]
  refine ⟨t, ht, responded, store, control, hQ, hlight, fun k hk => ?_, fun hhigh i hi => ?_, fun hlow k hk => ?_⟩
  · rw [hstage k (by omega), lightOn_of_wf_ge (hs.slots p pat hp) (by omega), levelOf_false]
  · exact visible_of_control_driven (level := true) (hQ ▸ hlight i hi) (control.trans hhigh)
  · exact visible_of_control_driven (level := false) (hQ ▸ hstage k hk) (control.trans hlow)

/-! ## LON, LOFF and LISON -/

/-- Settles O49: after the configuration check each command is its Chain command, whose one operation completes. -/
theorem displayCommandsDelegate : Obligations.DisplayCommandsDelegate := by
  refine fun s => ⟨fun h i hi => ?_, fun n hn => ?_⟩
  · exact unconfiguredGivesNotConfigured s 0 false h i (List.mem_cons_of_mem _ (List.mem_cons_of_mem _ hi))
  have lon : exec .lon s = exec .cen s := exec_of_configured (i := .lon) rfl hn
  have loff : exec .loff s = exec .cdis s := exec_of_configured (i := .loff) rfl hn
  have lison : exec .lison s = exec .cisen s := exec_of_configured (i := .lison) rfl hn
  refine ⟨lon, loff, lison, fun hno => ⟨?_, ?_, ?_⟩⟩
  · obtain ⟨t, ht, issued, responded, pins, -, -, -, store, inputs, -⟩ := exec_setControl_ok lon hno
    exact ⟨t, ht, responded, issued, pins, store, inputs⟩
  · obtain ⟨t, ht, issued, responded, pins, -, -, -, store, inputs, -⟩ := exec_setControl_ok loff hno
    exact ⟨t, ht, responded, issued, pins, store, inputs⟩
  · obtain ⟨t, level, ht, issued, responded, low, high, kept⟩ := (cisenReadsBack s).1 hno
    exact ⟨t, level, lison.trans ht, responded, issued, high, low, kept⟩

end Sys2Proof.Machine
end

section
/-! Errors, failures and pin events (60_exceptions.md R101 to R113): what an error leaves, what a sequence leaves at its first
failure, and the device's reaction to one pin event, which succeeds or fails. -/

namespace Sys2Proof.Machine

/-! ## Errors (R101, R103, R105) -/

theorem serveCommand_illegal {cmd : CommandWord} {v : Word} (h : ¬ ∃ i, decodeCommand cmd v = .ok i) (s : State) :
    serveCommand cmd v s = .next (respond s (errorResponse .illegalCommand)) := by
  unfold serveCommand
  cases hd : decodeCommand cmd v with
  | ok i => exact absurd ⟨i, hd⟩ h
  | error _ => rfl

/-- Settles O8: such a word is no command (O15), so the step takes it off the port and only responds. -/
theorem illegalWordOnlyResponds : Obligations.IllegalWordOnlyResponds := by
  refine ⟨rfl, fun s cmd v rest hok hp hillegal => ?_⟩
  have hd : ¬ ∃ i, decodeCommand cmd v = .ok i := by
    rw [reservedWordsAreIllegal cmd v, not_and_or]
    exact hillegal
  exact (step_cons hok hp).trans (serveCommand_illegal hd _)

/-- An instruction gives no response, gives one and does nothing else, or gives one that says OK or BackendIO. -/
theorem exec_respond_cases {i : Instr} {s t : State} (h : exec i s = .next t) :
    t.responses = s.responses ∨ (∃ r, t = respond s r) ∨
    ∃ r, (r.status = .ok ∨ r.status = .backendIO) ∧ t.responses = s.responses ++ [r] := by
  rcases exec_cases i s with ⟨line, level, -, e⟩ | ⟨r, -, e⟩ | ⟨u, v, hw, -, -, -, e⟩ | ⟨ops, -, -, -, -, -, e⟩ <;>
    rw [e] at h <;> cases h
  · exact .inl (pinSet_frame line level s).responses
  · exact .inr (.inl ⟨r, rfl⟩)
  · exact .inr (.inr ⟨_, .inl rfl, (hw.toExtends.respond _).responses⟩)
  · rcases issueAll_cases ops s with ⟨-, t, v, -, hf, e⟩ | ⟨k, b, -, -, t, -, hf, e⟩ <;> rw [e]
    · exact .inr (.inr ⟨_, .inl rfl, (hf.toExtends.respond _).responses⟩)
    · exact .inr (.inr ⟨_, .inr rfl, (hf.toExtends.respond _).responses⟩)

/-- Settles O50: of the ways an instruction responds, only the one that does nothing else is left. -/
theorem errorsChangeNothing : Obligations.ErrorsChangeNothing := by
  intro i s t r h hr hok hio
  have given {r' : Response} (hr' : t.responses = s.responses ++ [r']) : r' = r := by simpa using hr'.symm.trans hr
  rcases exec_respond_cases h with hnone | ⟨r', rfl⟩ | ⟨r', hstatus, hr'⟩
  · have none_given : s.responses = s.responses ++ [r] := hnone.symm.trans hr
    simp at none_given
  · obtain rfl := given rfl
    rfl
  · obtain rfl := given hr'
    rcases hstatus with hs | hs
    · exact absurd hs hok
    · exact absurd hs hio

/-! ## The first failure of a sequence (R108) -/

/-- A failed operation: a `PinSet` as R108 has it, a `PinGet` that only stands in the trace. -/
theorem pinOp_fails (op : PinOp) {s : State} {e : BackendError} (h : (drawAt s 0).io = .failed e) :
    ∃ t, pinOp op s = (t, .error e) ∧ OpsFrame s t [op] ∧
      (∀ line level, op = .set line level → t = setFails line level (drawAt s 0) s) ∧
      (op = .getControl → t = issueOp s .getControl) := by
  cases op with
  | set line level => exact ⟨_, pinOp_set_failed h, setFails_frame _ _ _ _, fun _ _ hop => by cases hop; rfl, nofun⟩
  | getControl => exact ⟨_, pinOp_get_failed h, issueOp_frame _ _, nofun, fun _ => rfl⟩

/-- At the first failure the operations before it have completed, and the failed one runs on what they leave. -/
theorem runPins_stops_at {ops : List PinOp} {s : State} {k : Nat} {e : BackendError} (hk : k < ops.length)
    (h : FirstFailure s k e) :
    ∃ u w, runPins (ops.take k) 0 0 s = .completed u w ∧ OpsFrame s u (ops.take k) ∧ (drawAt u 0).io = .failed e ∧
      ∀ t, pinOp ops[k] u = (t, .error e) → runPins ops 0 0 s = .failed t k e := by
  obtain ⟨hno, hfail⟩ := h
  have hlen : (ops.take k).length = k := List.length_take_of_le hk.le
  obtain ⟨u, w, hu, hf⟩ := runPins_completes (ops := ops.take k) 0 0 (hlen.symm ▸ hno)
  have hdraw : drawAt u 0 = drawAt s k := by rw [drawAt_of_frame hf, hlen, Nat.add_zero]
  refine ⟨u, w, hu, hf, hdraw ▸ hfail, fun t ht => ?_⟩
  calc runPins ops 0 0 s = runPins (ops.take k ++ ops[k] :: ops.drop (k + 1)) 0 0 s := by
        rw [List.cons_getElem_drop_succ, List.take_append_drop]
    _ = runPins (ops[k] :: ops.drop (k + 1)) (0 + (ops.take k).length) w u := by rw [runPins_append, hu]
    _ = .failed t k e := by rw [runPins_cons_failed _ _ _ ht, hlen, Nat.zero_add]

/-- After a failed `PinSet` the registers are as before, or as after a successful one (R108). -/
theorem chainFails_registers (n : Nat) (line : Line) (level edge reacted : Bool) (c : Chain) :
    (reacted = false →
      (chainFails n line level edge reacted c).S = c.S ∧ (chainFails n line level edge reacted c).Q = c.Q) ∧
    (reacted = true →
      (chainFails n line level edge reacted c).S = (chainReacts n line level edge c).S ∧
      (chainFails n line level edge reacted c).Q = (chainReacts n line level edge c).Q) := by
  constructor <;> rintro rfl <;> exact ⟨rfl, rfl⟩

/-- Settles O52: the operations before the failure complete, and the failed one is a `PinSet` or a `PinGet`. -/
theorem failureKeepsEarlierEffects : Obligations.FailureKeepsEarlierEffects := by
  intro ops s k e hk h
  obtain ⟨u, w, hu, before, hfail, stops⟩ := runPins_stops_at hk h
  obtain ⟨t, ht, failed, set, get⟩ := pinOp_fails ops[k] hfail
  have at_k {op : PinOp} (hop : ops[k]? = some op) : ops[k] = op := (List.getElem_eq_iff hk).mpr hop
  refine ⟨u, w, t, hu, stops t ht, ?_, ⟨failed.slots, failed.cfg⟩, fun line level hop => ?_, fun hop => ?_⟩
  · rw [(before.trans failed).trace, List.take_append_getElem hk]
  · obtain rfl := set line level (at_k hop)
    have ⟨kept, reacts⟩ :=
      chainFails_registers u.conf.capacity line level (drawAt u 0).edge (drawAt u 0).reacted u.chain
    refine ⟨rfl, chainFails_seen _ _ _ _ _ _, ?_⟩
    cases hr : (drawAt u 0).reacted with
    | false => exact .inl (kept hr)
    | true => exact .inr ⟨_, reacts hr⟩
  · obtain rfl := get (at_k hop)
    exact ⟨rfl, rfl⟩

/-! ## One pin event (R106, R108) -/

theorem OpsFrame.kept {s t : State} {ops : List PinOp} (h : OpsFrame s t ops) :
    Issued s t ops ∧ SameStore s t ∧ SameInputs s t :=
  ⟨⟨h.trace, h.drawn, h.draws⟩, ⟨h.slots, h.cfg⟩, h.conf, h.port⟩

/-- A pin event that succeeds: the record and the device take the level, and the registers go by the edge. -/
theorem exec_pinEventOf_ok (line : Line) (level : Bool) {s : State} (h : NoFailure s 1) :
    ∃ t, exec (pinEventOf line level) s = .next t ∧ Issued s t [.set line level] ∧
      t.pins = setLine s.pins line (levelOf level) ∧ t.chain.seen = setLine s.chain.seen line (levelOf level) ∧
      t.chain.S = (chainDriven s.conf.capacity line level (drawAt s 0).edge s.chain).S ∧
      t.chain.Q = (chainDriven s.conf.capacity line level (drawAt s 0).edge s.chain).Q ∧
      SameStore s t ∧ SameInputs s t := by
  obtain ⟨issued, kept⟩ := (setSucceeds_frame line level (drawAt s 0) s).kept
  refine ⟨setSucceeds line level (drawAt s 0) s, ?_, issued, rfl, chainReacts_seen _ _ _ _ _, rfl, rfl, kept⟩
  rw [exec_pinEventOf, pinSet_ok (h 0 Nat.one_pos)]

/-- Settles O59: the event is one failed `PinSet`, which drives its line to X. -/
theorem failedPinEvents : Obligations.FailedPinEvents := by
  intro line level s e h
  obtain ⟨issued, store, inputs⟩ := (setFails_frame line level (drawAt s 0) s).kept
  have ⟨kept, reacts⟩ := chainFails_registers s.conf.capacity line level (drawAt s 0).edge (drawAt s 0).reacted s.chain
  refine ⟨setFails line level (drawAt s 0) s, ?_, issued, ?_, ?_, fun other hne => ⟨?_, ?_⟩, kept, reacts, store, inputs⟩
  · rw [exec_pinEventOf, pinSet_failed h.2]
  · exact lineLevel_setLine_same _ _ _
  · rw [setFails_chain, chainFails_seen, lineLevel_setLine_same]
  · exact lineLevel_setLine_other _ _ _ _ hne
  · rw [setFails_chain, chainFails_seen, lineLevel_setLine_other _ _ _ _ hne]

/-- Settles O55: the event is one successful `PinSet`, and no edge of these lines moves a register. -/
theorem dataAndControlEvents : Obligations.DataAndControlEvents := by
  refine fun s level h => ⟨?_, ?_⟩
  · obtain ⟨t, ht, issued, pins, seen, hS, hQ, kept⟩ := exec_pinEventOf_ok .data level h
    rw [chainDriven_data] at hS hQ
    exact ⟨t, ht, issued, pins, seen, hS, hQ, kept⟩
  · obtain ⟨t, ht, issued, pins, seen, hS, hQ, kept⟩ := exec_pinEventOf_ok .control level h
    rw [chainDriven_control] at hS hQ
    exact ⟨t, ht, issued, pins, seen, hS, hQ, kept⟩

/-! ## Edges of the clock and the latch (R111, R112, R113) -/

section
variable {n : Nat} (line : Line) {edge : Bool} {c : Chain}

theorem chainDriven_of_low (h : lineLevel c.seen line = .low) :
    chainDriven n line true edge c = chainEdge n line c := by
  rw [chainDriven, h]
  rfl

/-- A line that is already high has no edge (R111, R112). -/
theorem chainDriven_of_high (h : lineLevel c.seen line = .high) : chainDriven n line true edge c = c := by
  rw [chainDriven, h]
  rfl

/-- From an unknown level the edge is taken as the draw says (R113). -/
theorem chainDriven_of_x (h : lineLevel c.seen line = .x) :
    chainDriven n line true edge c = if edge then chainEdge n line c else c := by
  rw [chainDriven, h]
  rfl

end

/-- `S'` is the shift register after the sampling edge: stage 0 holds the data level seen, and every other stage what the
stage before it held (R111). -/
def Shifted (n : Nat) (c : Chain) (S' : List Level) : Prop :=
  (0 < n → S'[0]? = some c.seen.data) ∧ ∀ k, 1 ≤ k → k < n → S'[k]? = c.S[k - 1]?

theorem shifted_clockEdge (n : Nat) (c : Chain) : Shifted n c (chainEdge n .clock c).S :=
  ⟨chainShift_first, fun _ => chainShift_next⟩

/-- Settles O56: the event is one successful `PinSet` of the clock, and only a rising edge moves `S`. -/
theorem clockEvents : Obligations.ClockEvents := by
  intro s level h _
  obtain ⟨t, ht, issued, pins, seen, hS, hQ, store, inputs⟩ := exec_pinEventOf_ok .clock level h
  have latched : t.chain.Q = s.chain.Q := hQ.trans (chainDriven_Q (.inl nofun))
  refine ⟨t, ht, issued, pins, seen, latched, store, inputs, ?_, ?_, ?_⟩
  · rintro rfl hlow
    rw [hS, chainDriven_of_low .clock hlow]
    exact shifted_clockEdge _ _
  · rintro rfl hhigh
    rw [hS, chainDriven_of_high .clock hhigh]
  · rintro rfl
    rw [hS, chainDriven_false]

/-- Settles O57: the event is one successful `PinSet` of the latch, and only a rising edge copies `S` to `Q`. -/
theorem latchEvents : Obligations.LatchEvents := by
  intro s level h
  obtain ⟨t, ht, issued, pins, seen, hS, hQ, store, inputs⟩ := exec_pinEventOf_ok .latch level h
  have unshifted : t.chain.S = s.chain.S := hS.trans (chainDriven_S (.inl nofun))
  refine ⟨t, ht, issued, pins, seen, unshifted, store, inputs, ?_, ?_, ?_⟩
  · rintro rfl hlow
    rw [hQ, chainDriven_of_low .latch hlow, chainEdge, chainLatch_Q]
  · rintro rfl hhigh
    rw [hQ, chainDriven_of_high .latch hhigh]
  · rintro rfl
    rw [hQ, chainDriven_false]

/-- Settles O58: from an unknown level the edge is the draw, so that the register moves or stays as the draw says. -/
theorem unknownLevelsAreDraws : Obligations.UnknownLevelsAreDraws := by
  intro s h _
  obtain ⟨t, ht, -, -, -, hS, -⟩ := exec_pinEventOf_ok .clock true h
  obtain ⟨u, hu, -, -, -, -, hQ, -⟩ := exec_pinEventOf_ok .latch true h
  refine ⟨fun hx => ⟨t, ht, ?_⟩, fun hx => ⟨u, hu, ?_⟩, fun hlow hdata hcap => ⟨t, ht, ?_⟩⟩
  · rw [hS, chainDriven_of_x .clock hx]
    cases (drawAt s 0).edge with
    | true => exact .inl ⟨rfl, shifted_clockEdge _ _⟩
    | false => exact .inr ⟨rfl, rfl⟩
  · rw [hQ, chainDriven_of_x .latch hx]
    cases (drawAt s 0).edge with
    | true => exact .inl ⟨rfl, rfl⟩
    | false => exact .inr ⟨rfl, rfl⟩
  · obtain ⟨first, -⟩ := shifted_clockEdge s.conf.capacity s.chain
    rw [hS, chainDriven_of_low .clock hlow, first hcap, hdata]

end Sys2Proof.Machine
end

section
/-! Reset and hazards (70_reset_and_hazards.md R126 to R138): what the reset input clears, a command that reset cuts short,
the full write that leaves nothing of a partial frame, and how many pin operations a command that succeeds has issued. -/

namespace Sys2Proof.Machine

/-! ## The reset input (R126) -/

/-- Settles O5: the step is the reset of the state without its request. -/
theorem resetInputClearsBlock : Obligations.ResetInputClearsBlock := by
  intro s rest hok hp
  have served : step s = .next (applyReset (withPort rest s)) := step_cons hok hp
  exact ⟨_, served, readSlot_applyReset _, rfl, rfl, rfl, rfl, rfl, rfl, rfl, rfl, rfl, rfl, rfl, rfl, rfl, rfl⟩

/-! ## A command cut short (R128) -/

/-- Reset after operations that all succeeded acts on what they left. -/
theorem abandon_of_completed {e : Effect} {issued : Nat} {s u : State} {w : Word} (hle : issued ≤ (effectOps e).length)
    (h : runPins ((effectOps e).take issued) 0 0 s = .completed u w) : abandon e issued s = applyReset u := by
  rw [abandon, if_pos hle, h]

/-- The step that serves a command cut short by reset abandons the command's effect; the requests behind it stay. -/
theorem step_commandReset {s : State} {cmd : CommandWord} {value : Word} {i : Instr} {issued : Nat} {rest : List Request}
    (hok : s.conf.ok) (hp : s.port = .commandReset cmd value issued :: rest) (hd : decodeCommand cmd value = .ok i) :
    step s = .next (withPort rest (abandon (effectOf i s) issued s)) := by
  have served : serveCommandReset cmd value issued (withPort rest s) =
      abandon (effectOf i (withPort rest s)) issued (withPort rest s) := by
    rw [serveCommandReset, hd]
  rw [effectOf_withPort, abandon_withPort] at served
  exact (step_cons hok hp).trans (congrArg Host.Outcome.next served)

/-- After reset the control line is low, so that no output shows its stage (R23). -/
theorem visible_applyReset {s : State} {k : Nat} (hk : k < s.chain.Q.length) : visible (applyReset s) k = [.blank] :=
  visible_of_control_driven (level := false) (List.getElem?_eq_getElem hk) rfl

/-- Settles O6: the operations issued complete, and the reset acts on what they leave. -/
theorem resetAbandonsCommand : Obligations.ResetAbandonsCommand := by
  intro s cmd value i issued rest hok hp hd hle hno
  have hlen : ((effectOps (effectOf i s)).take issued).length = issued := List.length_take_of_le hle
  obtain ⟨u, w, hu, frame⟩ := runPins_completes 0 0 (hlen.symm ▸ hno)
  have served : step s = .next (applyReset (withPort rest u)) := by
    rw [step_commandReset hok hp hd, abandon_of_completed hle hu]
    rfl
  exact ⟨_, u, w, served, hu, readSlot_applyReset _, rfl, rfl, rfl, rfl, rfl, rfl, rfl, rfl,
    fun k hk => visible_applyReset hk, frame.trace, frame.responses, frame.conf, rfl⟩

/-! ## The full write (R130, R134) -/

theorem levelOf_ne_x (b : Bool) : levelOf b ≠ .x := by cases b <;> exact Level.noConfusion

/-- The bits a completed CWRITE sends fill the chain, so that nothing of the old stages is left (R83). -/
theorem exec_cwrite_chain {s : State} (hs : ChainWf s) (value : Word) (hno : NoFailure s (3 + 3 * s.conf.capacity)) :
    ∃ t, exec (.cwrite value) s = .next t ∧ t.chain.S = sentBits value.toNat s.conf.capacity ∧
      t.chain.Q = sentBits value.toNat s.conf.capacity := by
  obtain ⟨hlen, -⟩ := hs
  obtain ⟨t, ht, -, -, hS, hQ⟩ := exec_cshift_ok (value := value) hno
  have sent : t.chain.S = sentBits value.toNat s.conf.capacity :=
    (hS hlen.le).trans (List.take_left' (sentBits_length _ _))
  exact ⟨_, (exec_cwrite_eq_cshift value s).trans ht, sent, hQ.trans sent⟩

/-- Settles O43: both chains are filled with the same bits sent, and a bit sent is a known level. -/
theorem fullWriteClearsThePartialFrame : Obligations.FullWriteClearsThePartialFrame := by
  intro s s' value hconf hs hs' hno hno'
  obtain ⟨t, ht, hS, hQ⟩ := exec_cwrite_chain hs value hno
  obtain ⟨t', ht', hS', hQ'⟩ := exec_cwrite_chain hs' value (hconf ▸ hno')
  rw [hconf] at hS' hQ'
  refine ⟨t, t', ht, ht', hS'.trans hS.symm, hQ'.trans hQ.symm, fun k hk hx => ?_⟩
  rw [hQ, sentBits_getElem? _ _ _ hk] at hx
  exact levelOf_ne_x _ (Option.some.inj hx)

/-! ## The number of pin operations (R138) -/

/-- A command that gives one response gives no other. -/
theorem responded_unique {s t : State} {r r' : Response} (h : Responded s t r) (h' : Responded s t r') : r = r' :=
  List.singleton_inj.mp (List.append_cancel_left (h.symm.trans h'))

theorem not_responded_of_kept {s t : State} (h : t.responses = s.responses) (r : Response) : ¬ Responded s t r :=
  fun hr => List.cons_ne_nil r [] (List.self_eq_append_right.mp (h.symm.trans hr))

/-- Settles O53: of the ways an instruction ends only two say OK: a write, which issues nothing, and a sequence of pin
operations that completes, which has issued all of them. -/
theorem pinOperationCounts : Obligations.PinOperationCounts := by
  intro i s t r h hr hok
  rcases exec_cases i s with ⟨line, level, -, e⟩ | ⟨r', herr, e⟩ | ⟨u, v, hw, -, hcount, -, e⟩ |
    ⟨ops, -, -, -, hcount, -, e⟩ <;> rw [e] at h <;> cases h
  · exact absurd hr (not_responded_of_kept (pinSet_frame line level s).responses r)
  · obtain rfl : r' = r := responded_unique rfl hr
    exact absurd hok herr.notOk
  · obtain ⟨htrace, -⟩ := (hw.toExtends.respond (okResponse v)).issued
    rw [htrace, hcount, List.append_nil, Nat.add_zero]
  · rcases issueAll_cases ops s with ⟨-, t, v, -, frame, e⟩ | ⟨k, b, -, -, t, -, frame, e⟩ <;> rw [e] at hr ⊢
    · rw [respond_trace, frame.trace, List.length_append, hcount]
    · obtain ⟨-, failed, -⟩ := frame.responded (backendResponse k b)
      obtain rfl : backendResponse k b = r := responded_unique failed hr
      cases hok

end Sys2Proof.Machine
end
